-- ==== Sys2Proof/Word.lean ====
section
/-! DEFINITION. The word types of the block. Every value is an unsigned bit pattern with bit 0 the least
significant bit (00_scope.md R2, R4), so a value of width `n` is a `BitVec n`; widths that are build parameters
are written `BitVec c.N` and the like where they are used. -/

namespace Sys2Proof

/-- Width of a "scalar integer" source (00_scope.md section 4; 92 D5). -/
abbrev scalarWidth : Nat := 64

/-- A scalar integer, the source of SWRI (43_slice.md R174). -/
abbrev Scalar := BitVec scalarWidth

/-- The header `cmd[15:0]` of a command word (30_encoding.md R70). -/
abbrev Header := BitVec 16

/-- The opcode field OP (30_encoding.md R70). -/
abbrev Opcode := BitVec 8

/-- A slice mode field, MD or MS (30_encoding.md R70). -/
abbrev ModeField := BitVec 2

/-- STATUS as the host sees it (10_state.md R29). -/
abbrev StatusWord := BitVec 8

/-- The CAUSE field of STATUS (10_state.md R29). -/
abbrev CauseCode := BitVec 4

end Sys2Proof
end

