-- ==== Sys2Proof/Config.lean ====
section
/-! DEFINITION. The build parameters of the block (00_scope.md section 4 and R1). They are fixed when the block is
built. The model takes them as arguments: `State` carries one `Config` that no step changes (log entry 2), so a
statement about every state is a statement about every configuration. LAT and RST_STYLE are not modelled (93 P6,
P7; log entry 6). The spec leaves no value of an executed command open, so there is no free value here. -/

namespace Sys2Proof

/-- The parameters N, DW, FW, CHECKED and INIT with R1's constraints on them. -/
structure Config where
  /-- Width of V in bits. -/
  N : Nat
  /-- Width of `din` and of R in bits. -/
  DW : Nat
  /-- Width of each operand field A, B, C, D in bits. -/
  FW : Nat
  /-- Contract checking: `true` is the checked configuration. -/
  CHECKED : Bool
  /-- The value V takes at reset. -/
  INIT : BitVec N
  N_pos : 1 ≤ N
  DW_ge : max N 64 ≤ DW
  FW_ge : max N DW ≤ 2 ^ FW - 1
  deriving DecidableEq, Repr

/-- Width of the command word, `CW = 16 + 4*FW` (00_scope.md section 4; 30_encoding.md R70). -/
abbrev Config.CW (c : Config) : Nat := 16 + 4 * c.FW

/-- Configuration A of 95_test_vectors.md, checked, with the default INIT. DESIGN CHOICE (log entry 2): the
parameters are open, and `State.reset` and `decodeTableWord` need one choice of them. -/
def Config.default : Config where
  N := 128
  DW := 128
  FW := 8
  CHECKED := true
  INIT := 0#128
  N_pos := by decide
  DW_ge := by decide
  FW_ge := by decide

end Sys2Proof
end

