-- ==== Sys2Proof/Syntax.lean ====
section
/-! DEFINITION. The 21 commands of BMG-1, one constructor for each row of spec/opcode_table.json
(30_encoding.md R73). Operands are unbounded non-negative integers, as the spec's rules treat them once they are
read from their fields (30_encoding.md R71; 43_slice.md R160). The value on `din` is no part of a command word
(R81) and so no part of an instruction: a meaning reads it from the input wires. -/

namespace Sys2Proof

/-- A slice operand in one of the three forms of 43_slice.md R160 (assembly forms: 30_encoding.md R81). -/
inductive SliceOperand where
  /-- Mode 0, `[hi:lo]`. -/
  | hiLo (hi lo : Nat)
  /-- Mode 1, `[lo+:width]`. -/
  | loWidth (lo width : Nat)
  /-- Mode 2, `[hi-:width]`. -/
  | hiWidth (hi width : Nat)
  deriving DecidableEq, Repr

/-- A command. -/
inductive Instr where
  /-- MASK K, w (R100). -/
  | mask (K w : Nat)
  /-- CONV Ws, Wd (R110). -/
  | conv (Ws Wd : Nat)
  /-- CLR (R120). -/
  | clr
  /-- LOAD Ws (R121). -/
  | load (Ws : Nat)
  /-- READV Wd (R122). -/
  | readv (Wd : Nat)
  /-- TEST i (R123). -/
  | test (i : Nat)
  /-- SET i, v (R124). -/
  | set (i : Nat) (v : Bool)
  /-- RESET i, the bit operation (R125). -/
  | reset (i : Nat)
  /-- FLIP i (R126). -/
  | flip (i : Nat)
  /-- ANY (R127). -/
  | any
  /-- ALL (R128). -/
  | all
  /-- NONE (R129). -/
  | none
  /-- COUNT (R130). -/
  | count
  /-- EQ (R131). -/
  | eq
  /-- SGET slice, i (R165). -/
  | sget (sl : SliceOperand) (i : Nat)
  /-- SSET slice, i, v (R166). -/
  | sset (sl : SliceOperand) (i : Nat) (v : Bool)
  /-- SFLIP slice, i (R167). -/
  | sflip (sl : SliceOperand) (i : Nat)
  /-- SRD slice, Wd (R170). -/
  | srd (sl : SliceOperand) (Wd : Nat)
  /-- SWR slice, Ws (R173). -/
  | swr (sl : SliceOperand) (Ws : Nat)
  /-- SWRI slice (R174). -/
  | swri (sl : SliceOperand)
  /-- SWRS destination, source (R175). -/
  | swrs (dst src : SliceOperand)
  deriving DecidableEq, Repr

end Sys2Proof
end

