-- ==== Sys2Proof/WellFormed.lean ====
section
/-! DEFINITION. When an instruction has an encoding: every operand that is held in a field of FW bits is in
`[0, 2^FW - 1]` (30_encoding.md R71). Nothing else is asked: an operand that breaks a precondition of its command
is well formed and raises that command's violation (60_exceptions.md R201). -/

namespace Sys2Proof

/-- `x` fits an operand field of FW bits (R71). -/
def fitsField (c : Config) (x : Nat) : Bool := decide (x < 2 ^ c.FW)

/-- Both numbers of a slice operand fit their fields. -/
def SliceOperand.wf (c : Config) : SliceOperand → Bool
  | .hiLo hi lo => fitsField c hi && fitsField c lo
  | .loWidth lo width => fitsField c lo && fitsField c width
  | .hiWidth hi width => fitsField c hi && fitsField c width

/-- Every operand of the instruction fits its field. -/
def Instr.wf (c : Config) : Instr → Bool
  | .mask K w => fitsField c K && fitsField c w
  | .conv Ws Wd => fitsField c Ws && fitsField c Wd
  | .clr => true
  | .load Ws => fitsField c Ws
  | .readv Wd => fitsField c Wd
  | .test i => fitsField c i
  | .set i _ => fitsField c i
  | .reset i => fitsField c i
  | .flip i => fitsField c i
  | .any => true
  | .all => true
  | .none => true
  | .count => true
  | .eq => true
  | .sget sl i => sl.wf c && fitsField c i
  | .sset sl i _ => sl.wf c && fitsField c i
  | .sflip sl i => sl.wf c && fitsField c i
  | .srd sl Wd => sl.wf c && fitsField c Wd
  | .swr sl Ws => sl.wf c && fitsField c Ws
  | .swri sl => sl.wf c
  | .swrs dst src => dst.wf c && src.wf c

end Sys2Proof
end

