-- ==== Sys2Proof/Decode.lean ====
section
/-! DEFINITION. The command word (30_encoding.md): its fields, the decoder, total on every word of CW bits
(R78), the encoder written from the same tables, and the header match and mask table of R74 as a second view of
the encoding. -/

namespace Sys2Proof

/-- The fields of a command word (R70). The operand fields are read as unsigned integers, VB as a bit value
(R71). A field left out of a literal is zero. -/
structure Fields where
  OP : Opcode
  MD : ModeField := 0#2
  MS : ModeField := 0#2
  VB : Bool := false
  RSV : BitVec 3 := 0#3
  A : Nat := 0
  B : Nat := 0
  C : Nat := 0
  D : Nat := 0
  deriving DecidableEq, Repr

/-- The fields of `cmd`, at the bit positions of R70. -/
def Fields.ofWord (c : Config) (cmd : BitVec c.CW) : Fields where
  OP := cmd.extractLsb' 0 8
  MD := cmd.extractLsb' 8 2
  MS := cmd.extractLsb' 10 2
  VB := cmd.getLsbD 12
  RSV := cmd.extractLsb' 13 3
  A := (cmd.extractLsb' 16 c.FW).toNat
  B := (cmd.extractLsb' (16 + c.FW) c.FW).toNat
  C := (cmd.extractLsb' (16 + 2 * c.FW) c.FW).toNat
  D := (cmd.extractLsb' (16 + 3 * c.FW) c.FW).toNat

/-- The header `RSV VB MS MD OP` of R70. -/
def Fields.header (f : Fields) : Header := f.RSV ++ BitVec.ofBool f.VB ++ f.MS ++ f.MD ++ f.OP

/-- The command word `D C B A header` of R70. Of an operand that does not fit its field the low FW bits are kept: DESIGN
CHOICE, since R71 gives such an operand no word (log entry 15). -/
def Fields.toWord (c : Config) (f : Fields) : BitVec c.CW :=
  (BitVec.ofNat c.FW f.D ++ BitVec.ofNat c.FW f.C ++ BitVec.ofNat c.FW f.B ++ BitVec.ofNat c.FW f.A
    ++ f.header).setWidth c.CW

/-- Why a word is no command (R75 to R77). Every one of these is the cause ILLEGAL_ENCODING (60_exceptions.md
R201): the names tell them apart for a reader only. -/
inductive DecodeError where
  /-- OP is unassigned (R75). -/
  | unassignedOp
  /-- RSV is not 0 (R76). -/
  | reservedBits
  /-- A field the command's format marks 0 is not 0 (R76). -/
  | unusedField
  /-- MD or MS is 3 in a format that has the mode (R77). -/
  | sliceMode
  deriving DecidableEq, Repr

/-- Which fields beside OP a format leaves free (R72); every other one must be 0. -/
structure Format where
  MD : Bool := false
  MS : Bool := false
  VB : Bool := false
  A : Bool := false
  B : Bool := false
  C : Bool := false
  D : Bool := false
  deriving DecidableEq, Repr

/-- Format Z (R72). -/
def Format.z : Format where

/-- Format U (R72). -/
def Format.u : Format where
  A := true

/-- Format UV (R72). -/
def Format.uv : Format where
  VB := true
  A := true

/-- Format P (R72). -/
def Format.p : Format where
  A := true
  B := true

/-- Format S with an operand in C: SGET, SFLIP, SRD, SWR (R72). -/
def Format.s : Format where
  MD := true
  A := true
  B := true
  C := true

/-- Format S with C = 0: SWRI (R72). -/
def Format.sNoC : Format where
  MD := true
  A := true
  B := true

/-- Format SV (R72). -/
def Format.sv : Format where
  MD := true
  VB := true
  A := true
  B := true
  C := true

/-- Format SS (R72). -/
def Format.ss : Format where
  MD := true
  MS := true
  A := true
  B := true
  C := true
  D := true

/-- Every field the format marks 0 is 0 (R76). RSV is checked apart from the formats. -/
def Fields.unusedZero (f : Fields) (fmt : Format) : Bool :=
  (fmt.MD || f.MD == 0#2) && (fmt.MS || f.MS == 0#2) && (fmt.VB || !f.VB) &&
  (fmt.A || f.A == 0) && (fmt.B || f.B == 0) && (fmt.C || f.C == 0) && (fmt.D || f.D == 0)

/-- The slice operand of a mode and its two fields (43_slice.md R160); mode 3 names none (R77). -/
def SliceOperand.ofFields (m : ModeField) (f1 f2 : Nat) : Option SliceOperand :=
  match m.toNat with
  | 0 => some (.hiLo f1 f2)
  | 1 => some (.loWidth f1 f2)
  | 2 => some (.hiWidth f1 f2)
  | _ => none

/-- The instruction `i`, where the fields are legal for the format. -/
def Fields.plain (f : Fields) (fmt : Format) (i : Instr) : Except DecodeError Instr :=
  if f.unusedZero fmt then .ok i else .error .unusedField

/-- The instruction that `mk` makes of the primary slice operand (MD, A, B), where the fields are legal. -/
def Fields.sliced (f : Fields) (fmt : Format) (mk : SliceOperand → Instr) : Except DecodeError Instr :=
  if f.unusedZero fmt then
    match SliceOperand.ofFields f.MD f.A f.B with
    | some sl => .ok (mk sl)
    | none => .error .sliceMode
  else .error .unusedField

/-- The instruction that `mk` makes of the primary slice operand (MD, A, B) and the source slice operand
(MS, C, D), where the fields are legal. -/
def Fields.sliced2 (f : Fields) (fmt : Format) (mk : SliceOperand → SliceOperand → Instr) :
    Except DecodeError Instr :=
  if f.unusedZero fmt then
    match SliceOperand.ofFields f.MD f.A f.B, SliceOperand.ofFields f.MS f.C f.D with
    | some dst, some src => .ok (mk dst src)
    | _, _ => .error .sliceMode
  else .error .unusedField

/-- The command the fields stand for: the opcode map of R73 with the formats of R72 and the operand fields of
R80. -/
def decodeFields (f : Fields) : Except DecodeError Instr :=
  if f.RSV ≠ 0#3 then .error .reservedBits
  else match f.OP.toNat with
    | 0x01 => f.plain .p (.mask f.A f.B)
    | 0x02 => f.plain .p (.conv f.A f.B)
    | 0x10 => f.plain .z .clr
    | 0x11 => f.plain .u (.load f.A)
    | 0x12 => f.plain .u (.readv f.A)
    | 0x13 => f.plain .u (.test f.A)
    | 0x14 => f.plain .uv (.set f.A f.VB)
    | 0x15 => f.plain .u (.reset f.A)
    | 0x16 => f.plain .u (.flip f.A)
    | 0x17 => f.plain .z .any
    | 0x18 => f.plain .z .all
    | 0x19 => f.plain .z .none
    | 0x1A => f.plain .z .count
    | 0x1B => f.plain .z .eq
    | 0x20 => f.sliced .s fun sl => .sget sl f.C
    | 0x21 => f.sliced .sv fun sl => .sset sl f.C f.VB
    | 0x22 => f.sliced .s fun sl => .sflip sl f.C
    | 0x23 => f.sliced .s fun sl => .srd sl f.C
    | 0x24 => f.sliced .s fun sl => .swr sl f.C
    | 0x25 => f.sliced .sNoC fun sl => .swri sl
    | 0x26 => f.sliced2 .ss fun dst src => .swrs dst src
    | _ => .error .unassignedOp

/-- The decoder: a command or the name of what is illegal, for every word (R78). -/
def decode (c : Config) (cmd : BitVec c.CW) : Except DecodeError Instr := decodeFields (Fields.ofWord c cmd)

/-- The mode field of a slice operand (R81). -/
def SliceOperand.mode : SliceOperand → ModeField
  | .hiLo _ _ => 0#2
  | .loWidth _ _ => 1#2
  | .hiWidth _ _ => 2#2

/-- Field 1 of a slice operand, A or C (R81). -/
def SliceOperand.field1 : SliceOperand → Nat
  | .hiLo hi _ => hi
  | .loWidth lo _ => lo
  | .hiWidth hi _ => hi

/-- Field 2 of a slice operand, B or D (R81). -/
def SliceOperand.field2 : SliceOperand → Nat
  | .hiLo _ lo => lo
  | .loWidth _ width => width
  | .hiWidth _ width => width

/-- The fields of an instruction (R72, R73, R80). -/
def encodeFields : Instr → Fields
  | .mask K w => { OP := 0x01, A := K, B := w }
  | .conv Ws Wd => { OP := 0x02, A := Ws, B := Wd }
  | .clr => { OP := 0x10 }
  | .load Ws => { OP := 0x11, A := Ws }
  | .readv Wd => { OP := 0x12, A := Wd }
  | .test i => { OP := 0x13, A := i }
  | .set i v => { OP := 0x14, VB := v, A := i }
  | .reset i => { OP := 0x15, A := i }
  | .flip i => { OP := 0x16, A := i }
  | .any => { OP := 0x17 }
  | .all => { OP := 0x18 }
  | .none => { OP := 0x19 }
  | .count => { OP := 0x1A }
  | .eq => { OP := 0x1B }
  | .sget sl i => { OP := 0x20, MD := sl.mode, A := sl.field1, B := sl.field2, C := i }
  | .sset sl i v => { OP := 0x21, MD := sl.mode, VB := v, A := sl.field1, B := sl.field2, C := i }
  | .sflip sl i => { OP := 0x22, MD := sl.mode, A := sl.field1, B := sl.field2, C := i }
  | .srd sl Wd => { OP := 0x23, MD := sl.mode, A := sl.field1, B := sl.field2, C := Wd }
  | .swr sl Ws => { OP := 0x24, MD := sl.mode, A := sl.field1, B := sl.field2, C := Ws }
  | .swri sl => { OP := 0x25, MD := sl.mode, A := sl.field1, B := sl.field2 }
  | .swrs dst src => { OP := 0x26, MD := dst.mode, MS := src.mode, A := dst.field1, B := dst.field2,
                       C := src.field1, D := src.field2 }

/-- The encoder: the command word of an instruction. -/
def encode (c : Config) (i : Instr) : BitVec c.CW := (encodeFields i).toWord c

/-- A row of the header match and mask table of R74, with the operand fields its format leaves free (R72). -/
structure HeaderRow where
  mnemonic : String
  hmatch : Header
  hmask : Header
  format : Format
  deriving DecidableEq, Repr

/-- The table of R74, row by row. -/
def headerTable : List HeaderRow :=
  [⟨"MASK", 0x0001, 0xFFFF, .p⟩, ⟨"CONV", 0x0002, 0xFFFF, .p⟩, ⟨"CLR", 0x0010, 0xFFFF, .z⟩,
   ⟨"LOAD", 0x0011, 0xFFFF, .u⟩, ⟨"READV", 0x0012, 0xFFFF, .u⟩, ⟨"TEST", 0x0013, 0xFFFF, .u⟩,
   ⟨"SET", 0x0014, 0xEFFF, .uv⟩, ⟨"RESET", 0x0015, 0xFFFF, .u⟩, ⟨"FLIP", 0x0016, 0xFFFF, .u⟩] ++
  [⟨"ANY", 0x0017, 0xFFFF, .z⟩, ⟨"ALL", 0x0018, 0xFFFF, .z⟩, ⟨"NONE", 0x0019, 0xFFFF, .z⟩,
   ⟨"COUNT", 0x001A, 0xFFFF, .z⟩, ⟨"EQ", 0x001B, 0xFFFF, .z⟩] ++
  [⟨"SGET", 0x0020, 0xFCFF, .s⟩, ⟨"SSET", 0x0021, 0xECFF, .sv⟩, ⟨"SFLIP", 0x0022, 0xFCFF, .s⟩,
   ⟨"SRD", 0x0023, 0xFCFF, .s⟩, ⟨"SWR", 0x0024, 0xFCFF, .s⟩, ⟨"SWRI", 0x0025, 0xFCFF, .sNoC⟩,
   ⟨"SWRS", 0x0026, 0xF0FF, .ss⟩]

/-- The row selects the word: its header matches under the mask, no free mode is 3, and every operand field the
format marks 0 is 0 (R74). -/
def HeaderRow.selects (r : HeaderRow) (c : Config) (cmd : BitVec c.CW) : Bool :=
  (cmd.setWidth 16 &&& r.hmask) == r.hmatch &&
  (cmd.setWidth 16 &&& 0x0300#16) != 0x0300#16 && (cmd.setWidth 16 &&& 0x0C00#16) != 0x0C00#16 &&
  (r.format.A || cmd.extractLsb' 16 c.FW == 0#c.FW) &&
  (r.format.B || cmd.extractLsb' (16 + c.FW) c.FW == 0#c.FW) &&
  (r.format.C || cmd.extractLsb' (16 + 2 * c.FW) c.FW == 0#c.FW) &&
  (r.format.D || cmd.extractLsb' (16 + 3 * c.FW) c.FW == 0#c.FW)

/-- The mnemonic of an instruction, as R73 spells it. -/
def Instr.mnemonic : Instr → String
  | .mask _ _ => "MASK"
  | .conv _ _ => "CONV"
  | .clr => "CLR"
  | .load _ => "LOAD"
  | .readv _ => "READV"
  | .test _ => "TEST"
  | .set _ _ => "SET"
  | .reset _ => "RESET"
  | .flip _ => "FLIP"
  | .any => "ANY"
  | .all => "ALL"
  | .none => "NONE"
  | .count => "COUNT"
  | .eq => "EQ"
  | .sget _ _ => "SGET"
  | .sset _ _ _ => "SSET"
  | .sflip _ _ => "SFLIP"
  | .srd _ _ => "SRD"
  | .swr _ _ => "SWR"
  | .swri _ => "SWRI"
  | .swrs _ _ => "SWRS"

/-- The command word whose low `nbits` bits are those of `w` and whose other bits are 0. The block stores no
words, so the word is laid out by nothing but its bit numbers (R70). -/
def tableWord (c : Config) (nbits w : Nat) : BitVec c.CW := BitVec.ofNat c.CW (w % 2 ^ nbits)

/-- What the decoder reads from a word of the opcode table, in the default configuration (log entry 10). A word
longer than CW bits is no command word (R79). -/
def decodeTableWord (nbits w : Nat) : Option Instr :=
  if nbits ≤ Config.default.CW then
    match decode Config.default (tableWord Config.default nbits w) with
    | .ok i => some i
    | .error _ => none
  else none

end Sys2Proof
end

