-- ==== Sys2Proof/Machine/State.lean ====
section
/-! DEFINITION. The state of the block as plain data (10_state.md), the reasons a step can stop, and the state
after reset. -/

namespace Sys2Proof.Machine

/-- The host's signals in one transaction slot (10_state.md R32). -/
structure Port (c : Config) where
  rst : Bool := false
  cmd_valid : Bool := false
  cmd : BitVec c.CW := 0#c.CW
  din : BitVec c.DW := 0#c.DW
  deriving DecidableEq, Repr

/-- The causes of a contract violation (60_exceptions.md R201). Code 0, NONE, is no violation and has no
constructor. -/
inductive Cause where
  /-- Code 1: the command word is illegal (30_encoding.md R75 to R77). -/
  | illegalEncoding
  /-- Code 2: a slice operand fails its legality condition (43_slice.md R160). -/
  | sliceBounds
  /-- Code 3: a width operand exceeds DW. -/
  | portWidth
  /-- Code 4: a slice-relative index is not below the slice's width. -/
  | sliceIndex
  /-- Code 5: a vector index is not below N. -/
  | bitIndex
  /-- Code 6: MASK asks for more one bits than its width. -/
  | maskWidth
  deriving DecidableEq, Repr

/-- The state. `V` to `FCMD` are the block's (10_state.md section 8). `cfg` and `host` are the model's own: the
build parameters (log entry 2), and what the host does, oldest slot first, the first entry being what stands on
the input wires now (log entry 1). STATUS is held as its two fields FAULT and CAUSE; its reserved bits are
hardwired and have no storage (R29; log entry 13). The captured source of a whole-slice write does not exist
between commands (R27). -/
structure State where
  cfg : Config
  /-- The storage register (R20). -/
  V : BitVec cfg.N
  /-- The result register (R23). -/
  R : BitVec cfg.DW
  /-- The result flag (R24). -/
  F : Bool
  /-- STATUS bit 0 (R29). -/
  FAULT : Bool
  /-- STATUS bits 7:4 (R29). -/
  CAUSE : CauseCode
  /-- The command word of the recorded violation (R31). -/
  FCMD : BitVec cfg.CW
  host : List (Port cfg)
  deriving DecidableEq, Repr

/-- Why the machine stops. -/
inductive Fault where
  /-- Raised by any command, legal or not as a word, that breaks a precondition in a block built with
  `CHECKED = 0`: undefined behaviour (60_exceptions.md R205; 93 U1, U2, E1 to E3). The spec gives no value for any
  later state. Safe: nothing can be proved of what such a block does next. -/
  | undefinedBehaviour (c : Cause)
  deriving DecidableEq, Repr

/-- Why an instruction has no meaning. -/
inductive Refusal where
  /-- Raised only by an arm of `exec` whose instruction has no meaning yet. No arm is of this kind. Safe: nothing
  can be proved of what the instruction does. -/
  | notModelled (mnemonic : String)
  deriving DecidableEq, Repr

/-- What a step answers. -/
abbrev Result := Host.Outcome State Fault Refusal

/-- A block of configuration `c` right after reset (10_state.md R33), with what the host does next. -/
def State.resetOf (c : Config) (host : List (Port c)) : State where
  cfg := c
  V := c.INIT
  R := 0#c.DW
  F := false
  FAULT := false
  CAUSE := 0#4
  FCMD := 0#c.CW
  host := host

/-- The machine right after reset, the host doing nothing yet (log entries 1 and 2). -/
def State.reset : State := State.resetOf Config.default []

end Sys2Proof.Machine
end

