-- ==== Sys2Proof/Machine/Ops.lean ====
section
/-! DEFINITION. The named operations: values (00_scope.md R5 to R9), the register writes, the outputs
(10_state.md R32), raising a contract violation (60_exceptions.md R200, R205), and the reset that is the only way
back from one (70_reset_and_hazards.md R230, R231). -/

namespace Sys2Proof.Machine

/-! ### Values -/

/-- `convert_D(x)`: bit `j` is `x[j]` below both widths and 0 above the source's (R6). -/
def convert {M : Nat} (D : Nat) (x : BitVec M) : BitVec D := x.setWidth D

/-- `mask_D(w)`: as an integer `2^w - 1` (R7). -/
def maskBits (D w : Nat) : BitVec D := BitVec.ofNat D (2 ^ w - 1)

/-- `popcount(x)`: the number of bits of `x` equal to 1 (R8). -/
def popcount {M : Nat} (x : BitVec M) : Nat := (List.range M).countP x.getLsbD

/-- `MemRead(lo, n)`: bits `lo` to `lo+n-1`, right-justified (R9). -/
def memRead {N : Nat} (V : BitVec N) (lo n : Nat) : BitVec n := V.extractLsb' lo n

/-- `V[i] <- b`, every other bit kept (R9, R124). -/
def writeBit {N : Nat} (V : BitVec N) (i : Nat) (b : Bool) : BitVec N :=
  (V &&& ~~~(1#N <<< i)) ||| ((BitVec.ofBool b).setWidth N <<< i)

/-- `SliceWrite(lo, width, s)` (43_slice.md R171), with the positioned mask of 40_mask.md R104. The source is a
value, formed before the write (R10, R27, R176). -/
def sliceWrite {N M : Nat} (V : BitVec N) (lo width : Nat) (s : BitVec M) : BitVec N :=
  let bits := convert N s <<< lo
  let m := maskBits N width <<< lo
  (V &&& ~~~m) ||| (bits &&& m)

/-! ### Register writes -/

/-- `V <- v`. -/
def State.writeV (s : State) (v : BitVec s.cfg.N) : State := { s with V := v }

/-- `R <- zext_DW(x)`: all DW bits are written, 0 above the result's width (R23). -/
def State.writeR {M : Nat} (s : State) (x : BitVec M) : State := { s with R := convert s.cfg.DW x }

/-- `F <- b`. -/
def State.writeF (s : State) (b : Bool) : State := { s with F := b }

/-! ### The input and output wires (R32) -/

/-- What stands on the input wires now: the host's next slot, or nothing asserted when it has none. -/
def State.port (s : State) : Port s.cfg := s.host.headD { }

/-- STATUS of its fields: CAUSE in bits 7:4, the reserved bits 3:1 hardwired 0, FAULT in bit 0 (R29). -/
def statusWord (CAUSE : CauseCode) (FAULT : Bool) : StatusWord := CAUSE ++ 0#3 ++ BitVec.ofBool FAULT

/-- `status`: STATUS, hardwired 0 when `CHECKED = 0` (R30). -/
def State.status (s : State) : StatusWord := if s.cfg.CHECKED then statusWord s.CAUSE s.FAULT else 0#8

/-- `fcmd`: FCMD, hardwired 0 when `CHECKED = 0` (R30). -/
def State.fcmd (s : State) : BitVec s.cfg.CW := if s.cfg.CHECKED then s.FCMD else 0#s.cfg.CW

/-- `err`: STATUS.FAULT. -/
def State.err (s : State) : Bool := s.status.getLsbD 0

/-- `cmd_ready`: NOT STATUS.FAULT. -/
def State.cmd_ready (s : State) : Bool := !s.err

/-- `dout`: R. -/
def State.dout (s : State) : BitVec s.cfg.DW := s.R

/-- `flag`: F. -/
def State.flag (s : State) : Bool := s.F

/-! ### Contract violations and reset -/

/-- The code of a cause in STATUS.CAUSE (60_exceptions.md R201). -/
def Cause.code : Cause → CauseCode
  | .illegalEncoding => 1#4
  | .sliceBounds => 2#4
  | .portWidth => 3#4
  | .sliceIndex => 4#4
  | .bitIndex => 5#4
  | .maskWidth => 6#4

/-- `raise ContractViolation(c)`. `CHECKED = 1`: V, R and F kept, FAULT and CAUSE recorded, FCMD gets the whole
command word (R200); the block is then halted, since `cmd_ready = 0` (R203). `CHECKED = 0`: undefined behaviour
(R205; log entry 4). -/
def raise (c : Cause) (s : State) : Result :=
  if s.cfg.CHECKED then .next { s with FAULT := true, CAUSE := c.code, FCMD := s.port.cmd }
  else .fault (.undefinedBehaviour c)

/-- `if not ok then raise ContractViolation(c)`, else go on. -/
def require (ok : Bool) (c : Cause) (s : State) (k : Result) : Result := if ok then k else raise c s

/-- `rst` asserted: every piece of state to its reset value (70_reset_and_hazards.md R230). The build and what the
host does next stay. -/
def State.applyReset (s : State) : State := State.resetOf s.cfg s.host

/-- The slot on the input wires has passed. -/
def State.nextSlot (s : State) : State := { s with host := s.host.tail }

end Sys2Proof.Machine
end

