-- ==== Sys2Proof/Machine/Operands.lean ====
section
/-! DEFINITION. The operand forms of the commands and the checks on them (30_encoding.md R80; 43_slice.md R160,
R161). A meaning makes its checks in the order of their cause codes, so the lowest code that applies is the one
raised (60_exceptions.md R202). -/

namespace Sys2Proof.Machine

/-- A slice `(lo, width)` (10_state.md R26). -/
structure Slice where
  lo : Nat
  width : Nat
  deriving DecidableEq, Repr

/-- A slice operand decoded over a vector of N bits; none where it is not legal (R160). Each subtraction stands
under the condition that keeps it from falling below 0. -/
def resolve (N : Nat) : SliceOperand → Option Slice
  | .hiLo hi lo => if lo ≤ hi ∧ hi < N then some ⟨lo, hi - lo + 1⟩ else none
  | .loWidth lo width => if lo + width ≤ N then some ⟨lo, width⟩ else none
  | .hiWidth hi width => if width ≤ hi + 1 ∧ hi < N then some ⟨hi + 1 - width, width⟩ else none

/-- The command goes on with the decoded slice, or raises SLICE_BOUNDS (R160). -/
def withSlice (s : State) (sl : SliceOperand) (k : Slice → Result) : Result :=
  match resolve s.cfg.N sl with
  | some r => k r
  | none => raise .sliceBounds s

/-- A port width, `Ws`, `Wd` or `K`, is at most DW (R80; cause PORT_WIDTH). -/
def needPort (s : State) (w : Nat) (k : Result) : Result := require (decide (w ≤ s.cfg.DW)) .portWidth s k

/-- A vector index is below N (R80; cause BIT_INDEX). -/
def needBit (s : State) (i : Nat) (k : Result) : Result := require (decide (i < s.cfg.N)) .bitIndex s k

/-- The V bit of the slice-relative index `i`, `lo + i`, where `i < width` (R161; cause SLICE_INDEX). -/
def withSliceBit (s : State) (sl : SliceOperand) (i : Nat) (k : Nat → Result) : Result :=
  withSlice s sl fun r => require (decide (i < r.width)) .sliceIndex s (k (r.lo + i))

/-- The source value `din[Ws-1:0]`; the bits of `din` above are ignored (R80; 92 D24). -/
def State.source (s : State) (Ws : Nat) : BitVec Ws := convert Ws s.port.din

/-- The 64-bit scalar on `din[63:0]` (43_slice.md R174). -/
def State.scalar (s : State) : Scalar := convert scalarWidth s.port.din

/-- The comparand `din[N-1:0]` of EQ (42_vector.md R131; 92 D23). -/
def State.comparand (s : State) : BitVec s.cfg.N := convert s.cfg.N s.port.din

end Sys2Proof.Machine
end

