-- ==== Sys2Proof/Machine/Flags.lean ====
section
/-! DEFINITION. What the commands that write the flag F compute (10_state.md R24). There is no other flag and no
command reads F (R25). TEST, ANY, ALL and NONE have the meanings the spec supplies from general knowledge
(93 G1, G3 to G5; log entry 9). -/

namespace Sys2Proof.Machine

/-- Bit `i` of V: TEST, and SGET at `lo + i` (42_vector.md R123; 43_slice.md R165). -/
def bitFlag (s : State) (i : Nat) : Bool := s.V.getLsbD i

/-- ANY: V is not 0 (R127). -/
def anyFlag (s : State) : Bool := s.V != 0#s.cfg.N

/-- ALL: V is `mask_N(N)` (R128). -/
def allFlag (s : State) : Bool := s.V == maskBits s.cfg.N s.cfg.N

/-- NONE: V is 0 (R129). -/
def noneFlag (s : State) : Bool := s.V == 0#s.cfg.N

/-- EQ: V is `din[N-1:0]` (R131). -/
def eqFlag (s : State) : Bool := s.V == s.comparand

end Sys2Proof.Machine
end

