-- ==== Sys2Proof/Machine/Mask.lean ====
section
/-! DEFINITION. The Mask Builder: the command MASK (40_mask.md R100), and the informative algorithm of R101 that
no command of the model uses. -/

namespace Sys2Proof.Machine

/-- MASK K, w (R100). `w <= K` is a hard precondition (R103). -/
def execMask (K w : Nat) (s : State) : Result :=
  needPort s K <| require (decide (w ≤ K)) .maskWidth s <| .next (s.writeR (maskBits K w))

/-- The slow path's loop (R101): `result` holds `n` ones at the top of each round, or `w` of them once `n` has
passed `w`. The fuel bounds the rounds; `w` of it is enough, since `n` doubles. -/
def maskDoubling {K : Nat} : Nat → Nat → Nat → BitVec K → BitVec K
  | 0, _, _, result => result
  | fuel + 1, n, w, result =>
    if n < w then maskDoubling fuel (2 * n) w (result ||| result <<< min n (w - n)) else result

/-- The algorithm of R101: one 64-bit word when `w < 64`, else doubling from 64 ones. -/
def buildMask (K w : Nat) : BitVec K :=
  if w < 64 then convert K ((1#64 <<< w) - 1#64)
  else maskDoubling w 64 w (convert K (BitVec.allOnes 64))

end Sys2Proof.Machine
end

