-- ==== Sys2Proof/Machine/Convert.lean ====
section
/-! DEFINITION. The Width Converter: the command CONV (41_convert.md R110), and the informative algorithm of R111
that no command of the model uses. -/

namespace Sys2Proof.Machine

/-- CONV Ws, Wd (R110). -/
def execConv (Ws Wd : Nat) (s : State) : Result :=
  needPort s Ws <| needPort s Wd <| .next (s.writeR (convert Wd (s.source Ws)))

/-- The number of 64-bit chunks of an X-bit value (R111). -/
def wordCount (X : Nat) : Nat := (X + 63) / 64

/-- The k-th 64-bit chunk of a value (R111; 20_memory.md R53). -/
def chunk {M : Nat} (src : BitVec M) (k : Nat) : BitVec 64 := convert 64 (src >>> (64 * k))

/-- The chunked copy of R111: chunks 0 to `n - 1` of the source, each placed in the result. -/
def chunkedCopy {M : Nat} (D : Nat) (src : BitVec M) : Nat → BitVec D
  | 0 => 0#D
  | n + 1 => chunkedCopy D src n ||| (convert D (chunk src n) <<< (64 * n))

/-- The algorithm of R111: identity, one 64-bit scalar, or the chunked copy. -/
def convertByChunks {M : Nat} (D : Nat) (src : BitVec M) : BitVec D :=
  if h : M = D then src.cast h
  else if M ≤ 64 then convert D (convert 64 src)
  else chunkedCopy D src (min (wordCount M) (wordCount D))

end Sys2Proof.Machine
end

