-- ==== Sys2Proof/Machine/Vector.lean ====
section
/-! DEFINITION. The Bit Vector commands (42_vector.md R120 to R132). RESET and COUNT, beside the flags of
Flags.lean, have the meanings the spec supplies from general knowledge (93 G2, G6; log entry 9). -/

namespace Sys2Proof.Machine

/-- CLR (R120). -/
def execClr (s : State) : Result := .next (s.writeV 0#s.cfg.N)

/-- LOAD Ws (R121). -/
def execLoad (Ws : Nat) (s : State) : Result :=
  needPort s Ws <| .next (s.writeV (convert s.cfg.N (s.source Ws)))

/-- READV Wd (R122). -/
def execReadv (Wd : Nat) (s : State) : Result :=
  needPort s Wd <| .next (s.writeR (convert Wd s.V))

/-- TEST i (R123). -/
def execTest (i : Nat) (s : State) : Result :=
  needBit s i <| .next (s.writeF (bitFlag s i))

/-- SET i, v (R124). -/
def execSet (i : Nat) (v : Bool) (s : State) : Result :=
  needBit s i <| .next (s.writeV (writeBit s.V i v))

/-- RESET i (R125). -/
def execReset (i : Nat) (s : State) : Result :=
  needBit s i <| .next (s.writeV (writeBit s.V i false))

/-- FLIP i (R126). -/
def execFlip (i : Nat) (s : State) : Result :=
  needBit s i <| .next (s.writeV (writeBit s.V i (!s.V.getLsbD i)))

/-- ANY (R127). -/
def execAny (s : State) : Result := .next (s.writeF (anyFlag s))

/-- ALL (R128). -/
def execAll (s : State) : Result := .next (s.writeF (allFlag s))

/-- NONE (R129). -/
def execNone (s : State) : Result := .next (s.writeF (noneFlag s))

/-- COUNT (R130): the count as an unsigned integer; it fits R, since `DW >= N`. -/
def execCount (s : State) : Result := .next (s.writeR (BitVec.ofNat s.cfg.DW (popcount s.V)))

/-- EQ (R131). -/
def execEq (s : State) : Result := .next (s.writeF (eqFlag s))

end Sys2Proof.Machine
end

