-- ==== Sys2Proof/Machine/Slice.lean ====
section
/-! DEFINITION. The Bit Slice commands (43_slice.md R160 to R178). A slice is an operand of one command
(10_state.md R26), and a whole-slice write's source is a value formed from the state before the command
(R10, R27, R176). -/

namespace Sys2Proof.Machine

/-- SGET slice, i (R165). -/
def execSget (sl : SliceOperand) (i : Nat) (s : State) : Result :=
  withSliceBit s sl i fun k => .next (s.writeF (bitFlag s k))

/-- SSET slice, i, v (R166). -/
def execSset (sl : SliceOperand) (i : Nat) (v : Bool) (s : State) : Result :=
  withSliceBit s sl i fun k => .next (s.writeV (writeBit s.V k v))

/-- SFLIP slice, i (R167). -/
def execSflip (sl : SliceOperand) (i : Nat) (s : State) : Result :=
  withSliceBit s sl i fun k => .next (s.writeV (writeBit s.V k (!s.V.getLsbD k)))

/-- SRD slice, Wd (R170). -/
def execSrd (sl : SliceOperand) (Wd : Nat) (s : State) : Result :=
  withSlice s sl fun r => needPort s Wd <| .next (s.writeR (convert Wd (memRead s.V r.lo r.width)))

/-- SWR slice, Ws (R173). -/
def execSwr (sl : SliceOperand) (Ws : Nat) (s : State) : Result :=
  withSlice s sl fun r => needPort s Ws <| .next (s.writeV (sliceWrite s.V r.lo r.width (s.source Ws)))

/-- SWRI slice (R174): the source is the 64-bit scalar on `din`. No PORT_WIDTH, since `DW >= 64`. -/
def execSwri (sl : SliceOperand) (s : State) : Result :=
  withSlice s sl fun r => .next (s.writeV (sliceWrite s.V r.lo r.width s.scalar))

/-- SWRS destination, source (R175): the destination is checked first (60_exceptions.md R202), and the source is
captured in full before the write (R176). -/
def execSwrs (dst src : SliceOperand) (s : State) : Result :=
  withSlice s dst fun d => withSlice s src fun r =>
    .next (s.writeV (sliceWrite s.V d.lo d.width (memRead s.V r.lo r.width)))

end Sys2Proof.Machine
end

