-- ==== Sys2Proof/Machine/Dispatch.lean ====
section
/-! DEFINITION. One arm for each command: the meaning it calls. -/

namespace Sys2Proof.Machine

def exec (i : Instr) (s : State) : Host.Outcome State Fault Refusal :=
  match i with
  | .mask K w => Sys2Proof.Machine.execMask K w s
  | .conv Ws Wd => Sys2Proof.Machine.execConv Ws Wd s
  | .clr => Sys2Proof.Machine.execClr s
  | .load Ws => Sys2Proof.Machine.execLoad Ws s
  | .readv Wd => Sys2Proof.Machine.execReadv Wd s
  | .test k => Sys2Proof.Machine.execTest k s
  | .set k v => Sys2Proof.Machine.execSet k v s
  | .reset k => Sys2Proof.Machine.execReset k s
  | .flip k => Sys2Proof.Machine.execFlip k s
  | .any => Sys2Proof.Machine.execAny s
  | .all => Sys2Proof.Machine.execAll s
  | .none => Sys2Proof.Machine.execNone s
  | .count => Sys2Proof.Machine.execCount s
  | .eq => Sys2Proof.Machine.execEq s
  | .sget sl k => Sys2Proof.Machine.execSget sl k s
  | .sset sl k v => Sys2Proof.Machine.execSset sl k v s
  | .sflip sl k => Sys2Proof.Machine.execSflip sl k s
  | .srd sl Wd => Sys2Proof.Machine.execSrd sl Wd s
  | .swr sl Ws => Sys2Proof.Machine.execSwr sl Ws s
  | .swri sl => Sys2Proof.Machine.execSwri sl s
  | .swrs dst src => Sys2Proof.Machine.execSwrs dst src s

end Sys2Proof.Machine
end

