-- ==== Sys2Proof/Machine/Command.lean ====
section
/-! DEFINITION. What one transaction slot on the command port does (10_state.md R32; 60_exceptions.md R203, R212;
70_reset_and_hazards.md R230). `step` only calls these. -/

namespace Sys2Proof.Machine

/-- The command on the port is accepted: presented, the block ready, and `rst` not asserted (R32, R230). -/
def State.accepts (s : State) : Bool := !s.port.rst && s.port.cmd_valid && s.cmd_ready

/-- The command word on the port, executed: a legal one by its meaning, an illegal one as ILLEGAL_ENCODING
(30_encoding.md R75 to R78). -/
def runCommand (s : State) : Result :=
  match decode s.cfg s.port.cmd with
  | .ok i => exec i s
  | .error _ => raise .illegalEncoding s

/-- The answer with the slot passed. -/
def passSlot : Result → Result
  | .next t => .next t.nextSlot
  | .fault f => .fault f
  | .refused r => .refused r

/-- One slot: reset when `rst` is asserted; else the command, where one is accepted; else nothing, since the
outputs change only by an accepted command or by reset (R32). -/
def slot (s : State) : Result :=
  if s.port.rst then .next s.applyReset.nextSlot
  else if s.accepts then passSlot (runCommand s)
  else .next s.nextSlot

/-- The slot in which the host presents the command word `cmd` with `din` 0 (30_encoding.md R81). -/
def presentWord (c : Config) (cmd : BitVec c.CW) : Port c where
  cmd_valid := true
  cmd := cmd

end Sys2Proof.Machine
end

