-- ==== Sys2Proof/Machine/Step.lean ====
section
/-! DEFINITION. One step of the machine is one transaction slot on the command port (log entries 1 and 6). There
is no program counter and no fetch: the host presents the commands (10_state.md R22; 20_memory.md R61). -/

namespace Sys2Proof.Machine

/-- One transaction slot. -/
def step (s : State) : Host.Outcome State Fault Refusal := slot s

/-- `s` where the host presents the word next, before all it was about to do (log entry 10). The word's low
`nbits` bits are those of `w`, the rest 0, and `din` is 0. -/
def State.withFetchWord (s : State) (nbits w : Nat) : State :=
  { s with host := presentWord s.cfg (tableWord s.cfg nbits w) :: s.host }

end Sys2Proof.Machine
end

