-- ==== Sys2Proof/Machine/Assembly.lean ====
section
/-! DEFINITION. The assembly syntax (30_encoding.md R81) and the pseudo-instructions (R82). The block never sees
them: an assembler turns a line into the command word and the value the host drives on `din`. Where R81 leaves
spelling open the reader follows log entry 14, and where it leaves the size of numbers open, log entry 15. -/

namespace Sys2Proof.Machine

/-- The pseudo-instructions of R82. `LDSC` and `COPYV` take their `din=x` beside them, as every command does. -/
inductive Pseudo where
  /-- `SET i` -/
  | setOne (i : Nat)
  /-- `SSET slice, i` -/
  | ssetOne (sl : SliceOperand) (i : Nat)
  /-- `LDSC` -/
  | ldsc
  /-- `RDSC` -/
  | rdsc
  /-- `SZERO slice` -/
  | szero (sl : SliceOperand)
  /-- `COPYV Ws` -/
  | copyv (Ws : Nat)
  deriving DecidableEq, Repr

/-- The expansion column of R82. -/
def Pseudo.expand : Pseudo → Instr
  | .setOne i => .set i true
  | .ssetOne sl i => .sset sl i true
  | .ldsc => .load scalarWidth
  | .rdsc => .readv scalarWidth
  | .szero sl => .swr sl 0
  | .copyv Ws => .conv Ws Ws

/-- An operand of a line: a number, or a slice operand. -/
inductive AsmOperand where
  | num (n : Nat)
  | slice (sl : SliceOperand)
  deriving DecidableEq, Repr

/-- The value of a digit in a base up to 16. -/
def digitValue (base : Nat) (ch : Char) : Option Nat :=
  let n := ch.toNat
  let d := if 48 ≤ n ∧ n ≤ 57 then n - 48
    else if 65 ≤ n ∧ n ≤ 70 then n - 55
    else if 97 ≤ n ∧ n ≤ 102 then n - 87
    else base
  if d < base then some d else none

/-- The value of the digits, `acc` being the value of those before them. One `_` may stand between two digits, as in
R110's example `0x1_2345_6789_ABCD`: DESIGN CHOICE, since R81 names no digit separator (log entry 14). -/
def digitsValue (base : Nat) : Nat → List Char → Option Nat
  | acc, [] => some acc
  | acc, '_' :: ch :: rest => (digitValue base ch).bind fun d => digitsValue base (acc * base + d) rest
  | acc, ch :: rest => (digitValue base ch).bind fun d => digitsValue base (acc * base + d) rest

/-- A number, decimal or hexadecimal with a `0x` prefix (R81), of any size (log entry 15). Its first character is a
digit. -/
def readNumber : List Char → Option Nat
  | '0' :: 'x' :: h :: rest => (digitValue 16 h).bind fun d => digitsValue 16 d rest
  | h :: rest => (digitValue 10 h).bind fun d => digitsValue 10 d rest
  | [] => none

/-- The parts of a text between the separators. -/
def splitAtChar (sep : Char) : List Char → List (List Char)
  | [] => [[]]
  | ch :: rest =>
    match splitAtChar sep rest with
    | part :: parts => if ch = sep then [] :: part :: parts else (ch :: part) :: parts
    | [] => [[ch]]

/-- The text without the spaces before it. -/
def dropSpaces : List Char → List Char
  | ' ' :: rest => dropSpaces rest
  | text => text

/-- The text without the spaces around it. -/
def trimSpaces (text : List Char) : List Char := (dropSpaces (dropSpaces text).reverse).reverse

/-- What stands between the brackets of a slice operand: `hi:lo`, `lo+:width` or `hi-:width` (R81). -/
def readSlice (text : List Char) : Option SliceOperand :=
  match splitAtChar ':' text with
  | [first, second] =>
    (readNumber second).bind fun n2 =>
      match first.reverse with
      | '+' :: digits => (readNumber digits.reverse).map fun n1 => .loWidth n1 n2
      | '-' :: digits => (readNumber digits.reverse).map fun n1 => .hiWidth n1 n2
      | _ => (readNumber first).map fun n1 => .hiLo n1 n2
  | _ => none

/-- One operand. -/
def readOperand : List Char → Option AsmOperand
  | '[' :: rest =>
    match rest.reverse with
    | ']' :: inside => (readSlice inside.reverse).map .slice
    | _ => none
  | text => (readNumber text).map .num

/-- The operands, in order. -/
def readOperands : List (List Char) → Option (List AsmOperand)
  | [] => some []
  | part :: parts => (readOperand part).bind fun o => (readOperands parts).map (o :: ·)

/-- A bit value operand. -/
def readBit : Nat → Option Bool
  | 0 => some false
  | 1 => some true
  | _ => none

/-- The command or pseudo-instruction of a mnemonic and its operands (R81, R82), and whether it may be given a
`din=x`. -/
def ofMnemonic (mnemonic : String) (ops : List AsmOperand) : Option (Instr × Bool) :=
  match mnemonic, ops with
  | "MASK", [.num K, .num w] => some (.mask K w, false)
  | "CONV", [.num Ws, .num Wd] => some (.conv Ws Wd, true)
  | "CLR", [] => some (.clr, false)
  | "LOAD", [.num Ws] => some (.load Ws, true)
  | "READV", [.num Wd] => some (.readv Wd, false)
  | "TEST", [.num i] => some (.test i, false)
  | "SET", [.num i, .num v] => (readBit v).map fun b => (.set i b, false)
  | "SET", [.num i] => some ((Pseudo.setOne i).expand, false)
  | "RESET", [.num i] => some (.reset i, false)
  | "FLIP", [.num i] => some (.flip i, false)
  | "ANY", [] => some (.any, false)
  | "ALL", [] => some (.all, false)
  | "NONE", [] => some (.none, false)
  | "COUNT", [] => some (.count, false)
  | "EQ", [] => some (.eq, true)
  | "SGET", [.slice sl, .num i] => some (.sget sl i, false)
  | "SSET", [.slice sl, .num i, .num v] => (readBit v).map fun b => (.sset sl i b, false)
  | "SSET", [.slice sl, .num i] => some ((Pseudo.ssetOne sl i).expand, false)
  | "SFLIP", [.slice sl, .num i] => some (.sflip sl i, false)
  | "SRD", [.slice sl, .num Wd] => some (.srd sl Wd, false)
  | "SWR", [.slice sl, .num Ws] => some (.swr sl Ws, true)
  | "SWRI", [.slice sl] => some (.swri sl, true)
  | "SWRS", [.slice dst, .slice src] => some (.swrs dst src, false)
  | "LDSC", [] => some (Pseudo.ldsc.expand, true)
  | "RDSC", [] => some (Pseudo.rdsc.expand, false)
  | "SZERO", [.slice sl] => some ((Pseudo.szero sl).expand, false)
  | "COPYV", [.num Ws] => some ((Pseudo.copyv Ws).expand, true)
  | _, _ => none

/-- The parts of a line after its mnemonic, and the value of the `din=x` that may end them; 0 where it is left
out. -/
def splitDin : List (List Char) → Option (List (List Char) × Option Nat)
  | [] => some ([], none)
  | [['d', 'i', 'n', '=']] => none
  | ('d' :: 'i' :: 'n' :: '=' :: number) :: [] => (readNumber number).map fun n => ([], some n)
  | part :: parts => (splitDin parts).map fun (ps, din) => (part :: ps, din)

/-- A line of assembly: its command, and the value the host drives on `din` with it (R81). The numbers are those of
the line, whatever the build: DESIGN CHOICE, since R81 does not bound them (log entry 15). -/
def assemble (line : List Char) : Option (Instr × Nat) :=
  let text := trimSpaces line
  let name := text.takeWhile (· ≠ ' ')
  let rest := trimSpaces (text.dropWhile (· ≠ ' '))
  let parts := if rest = [] then [] else (splitAtChar ',' rest).map trimSpaces
  (splitDin parts).bind fun (ops, din) =>
    (readOperands ops).bind fun os =>
      (ofMnemonic (String.ofList name) os).bind fun (i, takesDin) =>
        match din with
        | none => some (i, 0)
        | some x => if takesDin then some (i, x) else none

/-- The slot in which the host of a block of configuration `c` presents the line's command. A line with an operand
above `2^FW - 1`, which has no command word (R71), or with a `din=x` above `2^DW - 1`, is none: DESIGN CHOICE, since
R81 says nothing of such a line (log entry 15). -/
def assembleSlot (c : Config) (line : List Char) : Option (Port c) :=
  (assemble line).bind fun (i, din) =>
    if i.wf c && decide (din < 2 ^ c.DW) then
      some { presentWord c (encode c i) with din := BitVec.ofNat c.DW din }
    else none

end Sys2Proof.Machine
end

