-- ==== Sys2Proof/Safety.lean ====
section
/-! DEFINITION. The terms statements use: what a safe run is, which preconditions a command breaks
(60_exceptions.md R201) told apart from how a meaning checks them, what each command may write (10_state.md
section 8), and the invariant of the recorded violation. -/

namespace Sys2Proof.Machine

/-! ### Halted, final, safe -/

/-- The block is halted (60_exceptions.md R203): STATUS.FAULT is 1. -/
def State.halted (s : State) : Prop := s.err = true

/-- The end of a run (70_reset_and_hazards.md R239): the host has nothing more to do and no violation stands. A
halted block is never final (R203). -/
def State.final (s : State) : Prop := s.host = [] ∧ ¬ s.halted

/-- The first `k` slots run without a fault, a refusal or a violation that stands at the end. -/
def SafeFor (k : Nat) (s : State) : Prop := ∃ t, Sys2Proof.core.run k s = .next t ∧ ¬ t.halted

/-- The answer with its next state mapped. -/
def mapNext (g : State → State) : Result → Result
  | .next t => .next (g t)
  | .fault f => .fault f
  | .refused r => .refused r

/-! ### Command words by their bit numbers -/

/-- The word with the given header and operand fields, by the weights of R70's bit numbers. -/
def wordOf (c : Config) (header A B C D : Nat) : BitVec c.CW :=
  BitVec.ofNat c.CW (header + 2 ^ 16 * A + 2 ^ (16 + c.FW) * B + 2 ^ (16 + 2 * c.FW) * C + 2 ^ (16 + 3 * c.FW) * D)

/-- The header of a slice command: the opcode, and the operand's mode in MD (R70, R81). -/
def sliceHeader (op : Nat) (sl : SliceOperand) : Nat := op + 0x100 * sl.mode.toNat

/-! ### Slice operands (43_slice.md R160) -/

/-- The column "Legal iff" of R160. -/
def LegalSlice (N : Nat) : SliceOperand → Prop
  | .hiLo hi lo => lo ≤ hi ∧ hi < N
  | .loWidth lo width => lo + width ≤ N
  | .hiWidth hi width => width ≤ hi + 1 ∧ hi < N

/-- A legal operand names the slice `(lo, width)`: `hi = lo + width - 1` in the forms that give `hi`. -/
def Denotes (N : Nat) (sl : SliceOperand) (lo width : Nat) : Prop :=
  LegalSlice N sl ∧
    match sl with
    | .hiLo hi lo' => lo = lo' ∧ lo + width = hi + 1
    | .loWidth lo' width' => lo = lo' ∧ width = width'
    | .hiWidth hi width' => width = width' ∧ lo + width = hi + 1

/-! ### Preconditions (60_exceptions.md R201) -/

/-- The slice operands of a command, the destination first. -/
def sliceOperands : Instr → List SliceOperand
  | .sget sl _ | .sset sl _ _ | .sflip sl _ | .srd sl _ | .swr sl _ | .swri sl => [sl]
  | .swrs dst src => [dst, src]
  | .mask _ _ | .conv _ _ | .clr | .load _ | .readv _ | .test _ | .set _ _ | .reset _ | .flip _
  | .any | .all | .none | .count | .eq => []

/-- The width operands that PORT_WIDTH bounds by DW. -/
def portWidths : Instr → List Nat
  | .mask K _ => [K]
  | .conv Ws Wd => [Ws, Wd]
  | .load Ws => [Ws]
  | .readv Wd => [Wd]
  | .srd _ Wd => [Wd]
  | .swr _ Ws => [Ws]
  | .clr | .test _ | .set _ _ | .reset _ | .flip _ | .any | .all | .none | .count | .eq
  | .sget _ _ | .sset _ _ _ | .sflip _ _ | .swri _ | .swrs _ _ => []

/-- The vector indices that BIT_INDEX bounds by N. -/
def bitIndices : Instr → List Nat
  | .test i | .set i _ | .reset i | .flip i => [i]
  | .mask _ _ | .conv _ _ | .clr | .load _ | .readv _ | .any | .all | .none | .count | .eq
  | .sget _ _ | .sset _ _ _ | .sflip _ _ | .srd _ _ | .swr _ _ | .swri _ | .swrs _ _ => []

/-- The slice-relative indices that SLICE_INDEX bounds by their slice's width. -/
def sliceIndices : Instr → List (SliceOperand × Nat)
  | .sget sl i | .sset sl i _ | .sflip sl i => [(sl, i)]
  | .mask _ _ | .conv _ _ | .clr | .load _ | .readv _ | .test _ | .set _ _ | .reset _ | .flip _
  | .any | .all | .none | .count | .eq | .srd _ _ | .swr _ _ | .swri _ | .swrs _ _ => []

/-- The pairs `(K, w)` of which MASK_WIDTH asks `w <= K`. -/
def maskWidths : Instr → List (Nat × Nat)
  | .mask K w => [(K, w)]
  | .conv _ _ | .clr | .load _ | .readv _ | .test _ | .set _ _ | .reset _ | .flip _
  | .any | .all | .none | .count | .eq
  | .sget _ _ | .sset _ _ _ | .sflip _ _ | .srd _ _ | .swr _ _ | .swri _ | .swrs _ _ => []

/-- The command breaks the precondition of the cause. A slice-relative index is compared with the width of a
legal slice only (R202). -/
def Breaks (c : Config) (i : Instr) : Cause → Prop
  | .illegalEncoding => False
  | .sliceBounds => ∃ sl ∈ sliceOperands i, ¬ LegalSlice c.N sl
  | .portWidth => ∃ w ∈ portWidths i, c.DW < w
  | .sliceIndex => ∃ p ∈ sliceIndices i, ∃ lo width, Denotes c.N p.1 lo width ∧ width ≤ p.2
  | .bitIndex => ∃ k ∈ bitIndices i, c.N ≤ k
  | .maskWidth => ∃ p ∈ maskWidths i, p.1 < p.2

/-- The command word breaks the precondition of the cause; an illegal word breaks that of ILLEGAL_ENCODING. -/
def WordBreaks (c : Config) (cmd : BitVec c.CW) : Cause → Prop
  | .illegalEncoding => ∃ e, decode c cmd = .error e
  | k => ∃ i, decode c cmd = .ok i ∧ Breaks c i k

/-- The cause the word reports: the one with the lowest code among those that apply (R202). -/
def Reports (c : Config) (cmd : BitVec c.CW) (k : Cause) : Prop :=
  WordBreaks c cmd k ∧ ∀ k', WordBreaks c cmd k' → k.code ≤ k'.code

/-! ### Who writes what (10_state.md section 8) -/

/-- The commands that write V. -/
def writesV : Instr → Bool
  | .clr | .load _ | .set _ _ | .reset _ | .flip _ | .sset _ _ _ | .sflip _ _ | .swr _ _ | .swri _ | .swrs _ _ => true
  | .mask _ _ | .conv _ _ | .readv _ | .test _ | .any | .all | .none | .count | .eq | .sget _ _ | .srd _ _ => false

/-- The commands that write R. -/
def writesR : Instr → Bool
  | .mask _ _ | .conv _ _ | .readv _ | .count | .srd _ _ => true
  | .clr | .load _ | .test _ | .set _ _ | .reset _ | .flip _ | .any | .all | .none | .eq
  | .sget _ _ | .sset _ _ _ | .sflip _ _ | .swr _ _ | .swri _ | .swrs _ _ => false

/-- The commands that write F. -/
def writesF : Instr → Bool
  | .test _ | .any | .all | .none | .eq | .sget _ _ => true
  | .mask _ _ | .conv _ _ | .clr | .load _ | .readv _ | .set _ _ | .reset _ | .flip _ | .count
  | .sset _ _ _ | .sflip _ _ | .srd _ _ | .swr _ _ | .swri _ | .swrs _ _ => false

/-- The commands whose source operand is on `din` (10_state.md R32). -/
def readsDin : Instr → Bool
  | .load _ | .conv _ _ | .eq | .swr _ _ | .swri _ => true
  | .mask _ _ | .clr | .readv _ | .test _ | .set _ _ | .reset _ | .flip _ | .any | .all | .none | .count
  | .sget _ _ | .sset _ _ _ | .sflip _ _ | .srd _ _ | .swrs _ _ => false

/-- The commands that only read V (20_memory.md R56). -/
def onlyReadsV : Instr → Bool
  | .readv _ | .test _ | .any | .all | .none | .count | .eq | .sget _ _ | .srd _ _ => true
  | .mask _ _ | .conv _ _ | .clr | .load _ | .set _ _ | .reset _ | .flip _
  | .sset _ _ _ | .sflip _ _ | .swr _ _ | .swri _ | .swrs _ _ => false

/-! ### The invariant -/

/-- What holds of the recorded violation in every state a run from reset reaches. -/
structure State.Inv (s : State) : Prop where
  /-- An unchecked block records nothing (10_state.md R30). -/
  unchecked : s.cfg.CHECKED = false → s.FAULT = false
  /-- CAUSE and FCMD are 0 while FAULT is 0 (R29, R31). -/
  clear : s.FAULT = false → s.CAUSE = 0#4 ∧ s.FCMD = 0#s.cfg.CW
  /-- The recorded cause is the one the recorded command word reports (60_exceptions.md R200, R202, R206). -/
  recorded : s.FAULT = true → ∃ k, s.CAUSE = Cause.code k ∧ Reports s.cfg s.FCMD k

end Sys2Proof.Machine
end

