-- ==== Sys2Proof/Certificates/Slice0/Obligations.lean ====
section
/-! DEFINITION. The statements for the provers. Each says in its docstring which rules of spec/ it formalises.
A statement about every state is about every build, since a state carries its build parameters (log entry 2). -/

open Sys2Proof Sys2Proof.Machine

/-! ### The command word -/

/-- R70, R71: each field of a command word stands at its bit numbers, is read as an unsigned integer as it stands,
and every index, bound and width a legal command needs fits an operand field. -/
def Obligations.FieldsStandAtTheirBitNumbers : Prop :=
  ∀ (c : Config) (w : BitVec c.CW),
    (Fields.ofWord c w).OP.toNat = w.toNat % 2 ^ 8 ∧
    (Fields.ofWord c w).MD.toNat = w.toNat / 2 ^ 8 % 2 ^ 2 ∧
    (Fields.ofWord c w).MS.toNat = w.toNat / 2 ^ 10 % 2 ^ 2 ∧
    (Fields.ofWord c w).VB.toNat = w.toNat / 2 ^ 12 % 2 ∧
    (Fields.ofWord c w).RSV.toNat = w.toNat / 2 ^ 13 % 2 ^ 3 ∧
    (Fields.ofWord c w).A = w.toNat / 2 ^ 16 % 2 ^ c.FW ∧
    (Fields.ofWord c w).B = w.toNat / 2 ^ (16 + c.FW) % 2 ^ c.FW ∧
    (Fields.ofWord c w).C = w.toNat / 2 ^ (16 + 2 * c.FW) % 2 ^ c.FW ∧
    (Fields.ofWord c w).D = w.toNat / 2 ^ (16 + 3 * c.FW) % 2 ^ c.FW ∧
    c.CW = 16 + 4 * c.FW ∧ ∀ x, x ≤ max c.N c.DW → x < 2 ^ c.FW

/-- 30_encoding.md (R70 to R74, R80): every well-formed instruction is decoded from its encoding, with every
operand at every value its field admits. -/
def Obligations.DecodeOfEncode : Prop :=
  ∀ (c : Config) (i : Instr), i.wf c = true → decode c (encode c i) = .ok i

/-- 30_encoding.md (R72, R76 to R78): a word that decodes is the encoding of a well-formed instruction, so each
command has one word and no malformed word decodes. -/
def Obligations.EncodeOfDecode : Prop :=
  ∀ (c : Config) (w : BitVec c.CW) (i : Instr), decode c w = .ok i → i.wf c = true ∧ encode c i = w

/-- R74: a word decodes to a command just when the command's row of the header match and mask table selects it,
and no other row does; a word that is no command is selected by no row. -/
def Obligations.HeaderTableSelectsTheCommand : Prop :=
  ∀ (c : Config) (w : BitVec c.CW),
    (∀ i, decode c w = .ok i → (headerTable.filter (·.selects c w)).map (·.mnemonic) = [i.mnemonic]) ∧
    (∀ e, decode c w = .error e → headerTable.filter (·.selects c w) = [])

/-- R75, R76, R77: an unassigned OP, a non-zero RSV, a non-zero field that the command's format marks 0, and a
mode 3 where the format has the mode are illegal, and the accepted word raises ILLEGAL_ENCODING. -/
def Obligations.IllegalWordsRaiseIllegalEncoding : Prop :=
  (∀ (c : Config) (w : BitVec c.CW),
    ((Fields.ofWord c w).OP.toNat ∉ [0x01, 0x02, 0x10, 0x11, 0x12, 0x13, 0x14, 0x15, 0x16, 0x17, 0x18, 0x19, 0x1A,
        0x1B, 0x20, 0x21, 0x22, 0x23, 0x24, 0x25, 0x26] → ∃ e, decode c w = .error e) ∧
    ((Fields.ofWord c w).RSV ≠ 0#3 → ∃ e, decode c w = .error e) ∧
    (∀ r ∈ headerTable, (Fields.ofWord c w).OP = r.hmatch.setWidth 8 →
      ((r.format.MD = false ∧ (Fields.ofWord c w).MD ≠ 0#2) ∨
       (r.format.MS = false ∧ (Fields.ofWord c w).MS ≠ 0#2) ∨
       (r.format.VB = false ∧ (Fields.ofWord c w).VB = true) ∨
       (r.format.A = false ∧ (Fields.ofWord c w).A ≠ 0) ∨ (r.format.B = false ∧ (Fields.ofWord c w).B ≠ 0) ∨
       (r.format.C = false ∧ (Fields.ofWord c w).C ≠ 0) ∨ (r.format.D = false ∧ (Fields.ofWord c w).D ≠ 0)) →
      ∃ e, decode c w = .error e) ∧
    (∀ r ∈ headerTable, (Fields.ofWord c w).OP = r.hmatch.setWidth 8 →
      ((r.format.MD = true ∧ (Fields.ofWord c w).MD = 3#2) ∨ (r.format.MS = true ∧ (Fields.ofWord c w).MS = 3#2)) →
      ∃ e, decode c w = .error e)) ∧
  (∀ (s : State) (e : DecodeError), s.port.rst = false → s.port.cmd_valid = true → s.cmd_ready = true →
    decode s.cfg s.port.cmd = .error e → step s = mapNext State.nextSlot (raise .illegalEncoding s))

/-- R83: the worked encodings, with FW = 8. -/
def Obligations.WorkedEncodingsDecode : Prop :=
  decode Config.default 0x000046800001#48 = .ok (.mask 128 70) ∧
  decode Config.default 0x000020400002#48 = .ok (.conv 64 32) ∧
  decode Config.default 0x000000000010#48 = .ok .clr ∧
  decode Config.default 0x000000400011#48 = .ok (.load 64) ∧
  decode Config.default 0x000000051014#48 = .ok (.set 5 true) ∧
  decode Config.default 0x000000050014#48 = .ok (.set 5 false) ∧
  decode Config.default 0x004031C60223#48 = .ok (.srd (.hiWidth 198 49) 64) ∧
  decode Config.default 0x0000003F0025#48 = .ok (.swri (.hiLo 63 0)) ∧
  decode Config.default 0x285000280026#48 = .ok (.swrs (.hiLo 40 0) (.hiLo 80 40)) ∧
  decode Config.default 0x000204081121#48 = .ok (.sset (.loWidth 8 4) 2 true)

/-! ### One transaction slot -/

/-- 10_state.md R32 and 20_memory.md R52: an accepted word that decodes is run by its meaning, once, and the slot
passes. A slot as the unit of a step is the model's choice (log entries 1 and 6). -/
def Obligations.AcceptedWordRunsDecodedCommand : Prop :=
  ∀ (s : State) (i : Instr), s.port.rst = false → s.port.cmd_valid = true → s.cmd_ready = true →
    decode s.cfg s.port.cmd = .ok i → step s = mapNext State.nextSlot (exec i s)

/-- The host's two probes agree (log entries 1 and 10 are the model's choices): the instruction the decoder reads
from a table word is the one the first step after reset runs when the host presents that word. -/
def Obligations.PresentedTableWordRuns : Prop :=
  ∀ (nbits w : Nat) (i : Instr), decodeTableWord nbits w = some i →
    step (State.reset.withFetchWord nbits w) =
      mapNext State.nextSlot (exec i (State.reset.withFetchWord nbits w))

/-- 10_state.md R32, 60_exceptions.md R212: a slot with no `rst` and no accepted command changes nothing. -/
def Obligations.SlotWithoutCommandChangesNothing : Prop :=
  ∀ (s : State), s.port.rst = false → (s.port.cmd_valid = false ∨ s.cmd_ready = false) →
    step s = .next { s with host := s.host.tail }

/-- R230: `rst` puts every piece of state to its reset value, whatever the state, and a command presented with it
has no effect; the block then accepts commands. -/
def Obligations.ResetSlotGivesResetValues : Prop :=
  ∀ (s : State), s.port.rst = true →
    ∃ t, step s = .next t ∧ t.cmd_ready = true ∧
      t = { cfg := s.cfg, V := s.cfg.INIT, R := 0#s.cfg.DW, F := false, FAULT := false, CAUSE := 0#4,
            FCMD := 0#s.cfg.CW, host := s.host.tail }

/-- R33: what every piece of state holds after reset, for every build; `State.reset` is one such state. -/
def Obligations.StateAfterReset : Prop :=
  (∀ (c : Config) (host : List (Port c)),
    (State.resetOf c host).V = c.INIT ∧ (State.resetOf c host).R = 0#c.DW ∧ (State.resetOf c host).F = false ∧
    (State.resetOf c host).FAULT = false ∧ (State.resetOf c host).CAUSE = 0#4 ∧
    (State.resetOf c host).status = 0#8 ∧ (State.resetOf c host).FCMD = 0#c.CW ∧
    (State.resetOf c host).cmd_ready = true) ∧
  ∃ (c : Config) (host : List (Port c)), State.reset = State.resetOf c host

/-- 00_scope.md R1: no step changes a build parameter. -/
def Obligations.StepKeepsBuildParameters : Prop :=
  ∀ (s t : State), step s = .next t → t.cfg = s.cfg

/-! ### Contract violations -/

/-- 60_exceptions.md R200, R202, R205: an accepted word that breaks preconditions reports the cause with the lowest
code among those that apply. A checked block performs no write of the command and records FAULT, CAUSE and the whole
command word. In an unchecked block the behaviour is undefined (R205); that the step then answers the fault
`undefinedBehaviour` is the model's reading (log entry 4, DEDUCED). -/
def Obligations.ViolationReportsLowestCause : Prop :=
  (∀ (s : State) (k : Cause), s.port.rst = false → s.port.cmd_valid = true → s.cmd_ready = true →
    Reports s.cfg s.port.cmd k →
    (s.cfg.CHECKED = true →
      step s = .next { s with FAULT := true, CAUSE := k.code, FCMD := s.port.cmd, host := s.host.tail }) ∧
    (s.cfg.CHECKED = false → step s = .fault (.undefinedBehaviour k))) ∧
  (∀ (c : Config) (w : BitVec c.CW), (∃ k, WordBreaks c w k) → ∃ k, Reports c w k)

/-- 42_vector.md R132, 43_slice.md R178, 20_memory.md R63: an accepted word that breaks no precondition completes,
in both configurations, and records nothing. -/
def Obligations.LegalCommandCompletes : Prop :=
  ∀ (s : State), s.port.rst = false → s.port.cmd_valid = true → s.cmd_ready = true →
    (∀ k, ¬ WordBreaks s.cfg s.port.cmd k) →
    ∃ (V' : BitVec s.cfg.N) (R' : BitVec s.cfg.DW) (F' : Bool),
      step s = .next { s with V := V', R := R', F := F', host := s.host.tail }

/-- R203: after a violation of a checked block the block is halted, accepts no command and is never final, and
without `rst` it holds V, R, F, STATUS and FCMD through every later slot. -/
def Obligations.HaltedBlockHoldsItsState : Prop :=
  (∀ (c : Cause) (s : State), s.cfg.CHECKED = true → ∃ t, raise c s = .next t ∧ t.halted) ∧
  (∀ (s : State) (k : Nat), s.halted → (∀ p ∈ s.host, p.rst = false) →
    s.cmd_ready = false ∧ ¬ s.final ∧ Sys2Proof.core.run k s = .next { s with host := s.host.drop k })

/-- R231: only reset ends the halt, and it discards the results in R and F. -/
def Obligations.OnlyResetEndsTheHalt : Prop :=
  ∀ (s t : State), s.halted → step s = .next t →
    (¬ t.halted → s.port.rst = true) ∧
    (s.port.rst = true → ¬ t.halted ∧ t.FAULT = false ∧ t.R.toNat = 0 ∧ t.F = false)

/-- R206: violations never nest. A run without `rst` that ends halted holds the cause and the command word of the
first slot that violated: no slot before it found the block halted. -/
def Obligations.FirstViolationStaysRecorded : Prop :=
  ∀ (s t : State) (n : Nat), s.cfg.CHECKED = true → s.FAULT = false → (∀ p ∈ s.host, p.rst = false) →
    Sys2Proof.core.run n s = .next t → t.FAULT = true →
    ∃ (j : Nat) (u : State) (k : Cause), j < n ∧ Sys2Proof.core.run j s = .next u ∧ u.FAULT = false ∧
      u.accepts = true ∧ Reports u.cfg u.port.cmd k ∧ t.CAUSE = k.code ∧ t.FCMD.toNat = u.port.cmd.toNat

/-- The invariant of the recorded violation (10_state.md R29 to R31; 60_exceptions.md R200, R202, R206) holds after
reset. -/
def Obligations.RecordInvariantHoldsAfterReset : Prop :=
  State.reset.Inv ∧ ∀ (c : Config) (host : List (Port c)), (State.resetOf c host).Inv

/-- Every step keeps the invariant of the recorded violation: an unchecked block records nothing, CAUSE and FCMD
are 0 while FAULT is 0, and a recorded cause is the one its recorded command word reports (10_state.md R29 to R31;
60_exceptions.md R200, R202, R206). -/
def Obligations.StepKeepsRecordInvariant : Prop :=
  ∀ (s t : State), s.Inv → step s = .next t → t.Inv

/-- 10_state.md R29, 60_exceptions.md R201, and the record `(code << 4) | 1` of 95_test_vectors.md: the fields of
STATUS on the `status` output, and its value after each cause. -/
def Obligations.StatusShowsFaultAndCause : Prop :=
  (∀ (s : State), s.cfg.CHECKED = true →
    s.status.toNat = 16 * s.CAUSE.toNat + s.FAULT.toNat ∧ s.err = s.FAULT ∧ s.cmd_ready = !s.FAULT) ∧
  (∀ (s : State), s.cfg.CHECKED = true →
    ∃ t1 t2 t3 t4 t5 t6, raise .illegalEncoding s = .next t1 ∧ t1.status = 0x11#8 ∧
      raise .sliceBounds s = .next t2 ∧ t2.status = 0x21#8 ∧ raise .portWidth s = .next t3 ∧ t3.status = 0x31#8 ∧
      raise .sliceIndex s = .next t4 ∧ t4.status = 0x41#8 ∧ raise .bitIndex s = .next t5 ∧ t5.status = 0x51#8 ∧
      raise .maskWidth s = .next t6 ∧ t6.status = 0x61#8)

/-- 10_state.md R30, 60_exceptions.md R205: in an unchecked block STATUS and FCMD read 0 in every state, so it is
always ready, nothing records a violation, and a violation is undefined behaviour. That the step then answers the
fault `undefinedBehaviour` is the model's reading (log entry 4, DEDUCED). -/
def Obligations.UncheckedBlockReadsNoRecord : Prop :=
  ∀ (s : State), s.cfg.CHECKED = false →
    s.status = 0#8 ∧ s.fcmd = 0#s.cfg.CW ∧ s.cmd_ready = true ∧
    ∀ k, s.port.rst = false → s.port.cmd_valid = true → Reports s.cfg s.port.cmd k →
      step s = .fault (.undefinedBehaviour k)

/-! ### Mask Builder and Width Converter -/

/-- R100: MASK. -/
def Obligations.MaskWritesLowOnes : Prop :=
  ∀ (s : State) (K w : Nat),
    (K < 2 ^ s.cfg.FW → w < 2 ^ s.cfg.FW → decode s.cfg (wordOf s.cfg 0x0001 K w 0 0) = .ok (.mask K w)) ∧
    (s.cfg.DW < K → exec (.mask K w) s = raise .portWidth s) ∧
    (K ≤ s.cfg.DW → K < w → exec (.mask K w) s = raise .maskWidth s) ∧
    (K ≤ s.cfg.DW → w ≤ K → ∃ r : BitVec s.cfg.DW, exec (.mask K w) s = .next { s with R := r } ∧
      r.toNat = 2 ^ w - 1 ∧ ∀ j, r.getLsbD j = decide (j < w))

/-- R110: CONV. -/
def Obligations.ConvWritesConvertedSource : Prop :=
  ∀ (s : State) (Ws Wd : Nat),
    (Ws < 2 ^ s.cfg.FW → Wd < 2 ^ s.cfg.FW → decode s.cfg (wordOf s.cfg 0x0002 Ws Wd 0 0) = .ok (.conv Ws Wd)) ∧
    (s.cfg.DW < Ws ∨ s.cfg.DW < Wd → exec (.conv Ws Wd) s = raise .portWidth s) ∧
    (Ws ≤ s.cfg.DW → Wd ≤ s.cfg.DW → ∃ r : BitVec s.cfg.DW, exec (.conv Ws Wd) s = .next { s with R := r } ∧
      ∀ j, r.getLsbD j = (decide (j < min Ws Wd) && s.port.din.getLsbD j))

/-- R102: the algorithm of R101 gives `mask_K(w)` for every `0 <= w <= K`: the value `2^w - 1`, whose ones are
`w` in number and stand at the positions below `w`. -/
def Obligations.MaskAlgorithmGivesMask : Prop :=
  ∀ (K w : Nat), w ≤ K →
    buildMask K w = maskBits K w ∧ (buildMask K w).toNat = 2 ^ w - 1 ∧ popcount (buildMask K w) = w ∧
    ∀ j, (buildMask K w).getLsbD j = decide (j < w)

/-- R104: the positioned mask has its ones exactly at `[lo, lo+width)`, loses none at the top, and no whole-slice
write raises MASK_WIDTH. -/
def Obligations.PositionedMaskCoversSlice : Prop :=
  (∀ (N lo width : Nat), lo + width ≤ N →
    (maskBits N width <<< lo).toNat = (2 ^ width - 1) * 2 ^ lo ∧
    ∀ k, (maskBits N width <<< lo).getLsbD k = decide (lo ≤ k ∧ k < lo + width)) ∧
  (∀ (s : State) (dst src : SliceOperand) (Ws : Nat), s.FAULT = false →
    exec (.swr dst Ws) s ≠ raise .maskWidth s ∧ exec (.swri dst) s ≠ raise .maskWidth s ∧
    exec (.swrs dst src) s ≠ raise .maskWidth s)

/-- R112: the algorithm of R111 gives `convert_D(src)` for all widths. -/
def Obligations.ConvertAlgorithmGivesConvert : Prop :=
  ∀ (M D : Nat) (src : BitVec M), convertByChunks D src = convert D src ∧
    ∀ j, (convertByChunks D src).getLsbD j = (decide (j < min M D) && src.getLsbD j)

/-- R6, R113: conversion is the identity at equal widths, keeps the value and zero-fills when it widens, and keeps
the low bits when it narrows. -/
def Obligations.ConvertKeepsLowBits : Prop :=
  ∀ (M D : Nat) (v : BitVec M),
    convert M v = v ∧ (M < D → (convert D v).toNat = v.toNat) ∧ (D < M → (convert D v).toNat = v.toNat % 2 ^ D) ∧
    ∀ j, (convert D v).getLsbD j = (decide (j < min M D) && v.getLsbD j)

/-! ### Bit Vector commands -/

/-- R120: CLR. -/
def Obligations.ClrClearsVector : Prop :=
  ∀ (s : State), decode s.cfg (wordOf s.cfg 0x0010 0 0 0 0) = .ok .clr ∧
    ∃ v : BitVec s.cfg.N, exec .clr s = .next { s with V := v } ∧ ∀ k, v.getLsbD k = false

/-- R121: LOAD. -/
def Obligations.LoadTakesSourceBits : Prop :=
  ∀ (s : State) (Ws : Nat),
    (Ws < 2 ^ s.cfg.FW → decode s.cfg (wordOf s.cfg 0x0011 Ws 0 0 0) = .ok (.load Ws)) ∧
    (s.cfg.DW < Ws → exec (.load Ws) s = raise .portWidth s) ∧
    (Ws ≤ s.cfg.DW → ∃ v : BitVec s.cfg.N, exec (.load Ws) s = .next { s with V := v } ∧
      ∀ k, k < s.cfg.N → v.getLsbD k = (decide (k < Ws) && s.port.din.getLsbD k))

/-- R122: READV. -/
def Obligations.ReadvGivesVectorBits : Prop :=
  ∀ (s : State) (Wd : Nat),
    (Wd < 2 ^ s.cfg.FW → decode s.cfg (wordOf s.cfg 0x0012 Wd 0 0 0) = .ok (.readv Wd)) ∧
    (s.cfg.DW < Wd → exec (.readv Wd) s = raise .portWidth s) ∧
    (Wd ≤ s.cfg.DW → ∃ r : BitVec s.cfg.DW, exec (.readv Wd) s = .next { s with R := r } ∧
      ∀ j, r.getLsbD j = (decide (j < min s.cfg.N Wd) && s.V.getLsbD j))

/-- R123: TEST. -/
def Obligations.TestReadsBit : Prop :=
  ∀ (s : State) (i : Nat),
    (i < 2 ^ s.cfg.FW → decode s.cfg (wordOf s.cfg 0x0013 i 0 0 0) = .ok (.test i)) ∧
    (s.cfg.N ≤ i → exec (.test i) s = raise .bitIndex s) ∧
    (i < s.cfg.N → exec (.test i) s = .next { s with F := s.V.getLsbD i })

/-- R124: SET, and that `SET i, 0` has the effect of `RESET i`. -/
def Obligations.SetWritesOneBit : Prop :=
  ∀ (s : State) (i : Nat) (b : Bool),
    (i < 2 ^ s.cfg.FW →
      decode s.cfg (wordOf s.cfg (0x0014 + 0x1000 * b.toNat) i 0 0 0) = .ok (.set i b)) ∧
    (s.cfg.N ≤ i → exec (.set i b) s = raise .bitIndex s) ∧
    (i < s.cfg.N → ∃ v : BitVec s.cfg.N, exec (.set i b) s = .next { s with V := v } ∧
      v.getLsbD i = b ∧ ∀ k, k ≠ i → v.getLsbD k = s.V.getLsbD k) ∧
    exec (.set i false) s = exec (.reset i) s

/-- R125: RESET. -/
def Obligations.ResetCommandClearsOneBit : Prop :=
  ∀ (s : State) (i : Nat),
    (i < 2 ^ s.cfg.FW → decode s.cfg (wordOf s.cfg 0x0015 i 0 0 0) = .ok (.reset i)) ∧
    (s.cfg.N ≤ i → exec (.reset i) s = raise .bitIndex s) ∧
    (i < s.cfg.N → ∃ v : BitVec s.cfg.N, exec (.reset i) s = .next { s with V := v } ∧
      v.getLsbD i = false ∧ ∀ k, k ≠ i → v.getLsbD k = s.V.getLsbD k)

/-- R126: FLIP, and that two FLIPs of one bit restore it. -/
def Obligations.FlipInvertsOneBit : Prop :=
  ∀ (s : State) (i : Nat),
    (i < 2 ^ s.cfg.FW → decode s.cfg (wordOf s.cfg 0x0016 i 0 0 0) = .ok (.flip i)) ∧
    (s.cfg.N ≤ i → exec (.flip i) s = raise .bitIndex s) ∧
    (i < s.cfg.N → ∃ v : BitVec s.cfg.N, exec (.flip i) s = .next { s with V := v } ∧
      v.getLsbD i = !s.V.getLsbD i ∧ (∀ k, k ≠ i → v.getLsbD k = s.V.getLsbD k) ∧
      exec (.flip i) { s with V := v } = .next s)

/-- R127, R128, R129: ANY, ALL and NONE, that ANY is the opposite of NONE, and that ALL is ANY of one bit. -/
def Obligations.AnyAllNoneQueryVector : Prop :=
  ∀ (s : State),
    decode s.cfg (wordOf s.cfg 0x0017 0 0 0 0) = .ok .any ∧
    decode s.cfg (wordOf s.cfg 0x0018 0 0 0 0) = .ok .all ∧
    decode s.cfg (wordOf s.cfg 0x0019 0 0 0 0) = .ok .none ∧
    ∃ any all none : Bool, exec .any s = .next { s with F := any } ∧ exec .all s = .next { s with F := all } ∧
      exec .none s = .next { s with F := none } ∧
      (any = true ↔ ∃ k, k < s.cfg.N ∧ s.V.getLsbD k = true) ∧
      (all = true ↔ ∀ k, k < s.cfg.N → s.V.getLsbD k = true) ∧
      (none = true ↔ ∀ k, k < s.cfg.N → s.V.getLsbD k = false) ∧ any = (!none) ∧ (s.cfg.N = 1 → all = any)

/-- R130: COUNT; the count is at most N and fits R. -/
def Obligations.CountGivesNumberOfOnes : Prop :=
  ∀ (s : State), decode s.cfg (wordOf s.cfg 0x001A 0 0 0 0) = .ok .count ∧
    ∃ r : BitVec s.cfg.DW, exec .count s = .next { s with R := r } ∧ r.toNat ≤ s.cfg.N ∧
      r.toNat = ((Finset.univ : Finset (Fin s.cfg.N)).filter fun k => s.V.getLsbD k.val = true).card

/-- R131: EQ. -/
def Obligations.EqComparesLowBitsOfDin : Prop :=
  ∀ (s : State), decode s.cfg (wordOf s.cfg 0x001B 0 0 0 0) = .ok .eq ∧
    ∃ f : Bool, exec .eq s = .next { s with F := f } ∧
      (f = true ↔ ∀ k, k < s.cfg.N → s.V.getLsbD k = s.port.din.getLsbD k)

/-! ### Bit Slice commands -/

/-- R160: the three forms of a slice operand, when each is legal, and what it names; a legal slice has
`lo + width <= N`, `hi = lo + width - 1`, and width 0 only in modes 1 and 2; an illegal one raises SLICE_BOUNDS. -/
def Obligations.SliceOperandsDecode : Prop :=
  (∀ (N hi lo : Nat),
    resolve N (.hiLo hi lo) = if lo ≤ hi ∧ hi < N then some ⟨lo, hi - lo + 1⟩ else none) ∧
  (∀ (N lo width : Nat), resolve N (.loWidth lo width) = if lo + width ≤ N then some ⟨lo, width⟩ else none) ∧
  (∀ (N hi width : Nat),
    resolve N (.hiWidth hi width) = if width ≤ hi + 1 ∧ hi < N then some ⟨hi + 1 - width, width⟩ else none) ∧
  (∀ (N : Nat) (sl : SliceOperand) (r : Slice), resolve N sl = some r →
    r.lo + r.width ≤ N ∧ (∀ hi lo, sl = .hiLo hi lo → hi + 1 = r.lo + r.width ∧ 1 ≤ r.width) ∧
    (∀ hi width, sl = .hiWidth hi width → hi + 1 = r.lo + r.width)) ∧
  (∀ (f1 f2 : Nat), SliceOperand.ofFields 0#2 f1 f2 = some (.hiLo f1 f2) ∧
    SliceOperand.ofFields 1#2 f1 f2 = some (.loWidth f1 f2) ∧
    SliceOperand.ofFields 2#2 f1 f2 = some (.hiWidth f1 f2) ∧ SliceOperand.ofFields 3#2 f1 f2 = none) ∧
  (∀ (s : State) (sl : SliceOperand) (k : Slice → Result), resolve s.cfg.N sl = none →
    withSlice s sl k = raise .sliceBounds s)

/-- R165: SGET, and that it equals TEST of `lo + i`. -/
def Obligations.SgetReadsSliceBit : Prop :=
  (∀ (c : Config) (sl : SliceOperand) (i : Nat), sl.wf c = true → i < 2 ^ c.FW →
    decode c (wordOf c (sliceHeader 0x0020 sl) sl.field1 sl.field2 i 0) = .ok (.sget sl i)) ∧
  (∀ (c : Config) (a b i : Nat), a < 2 ^ c.FW → b < 2 ^ c.FW → i < 2 ^ c.FW →
    decode c (wordOf c 0x0320 a b i 0) = .error .sliceMode) ∧
  (∀ (s : State) (sl : SliceOperand) (i : Nat),
    (¬ LegalSlice s.cfg.N sl → exec (.sget sl i) s = raise .sliceBounds s) ∧
    (∀ lo width, Denotes s.cfg.N sl lo width →
      (width ≤ i → exec (.sget sl i) s = raise .sliceIndex s) ∧
      (i < width → exec (.sget sl i) s = .next { s with F := s.V.getLsbD (lo + i) } ∧
        exec (.sget sl i) s = exec (.test (lo + i)) s)))

/-- R166: SSET. -/
def Obligations.SsetWritesSliceBit : Prop :=
  (∀ (c : Config) (sl : SliceOperand) (i : Nat) (b : Bool), sl.wf c = true → i < 2 ^ c.FW →
    decode c (wordOf c (sliceHeader 0x0021 sl + 0x1000 * b.toNat) sl.field1 sl.field2 i 0) = .ok (.sset sl i b)) ∧
  (∀ (c : Config) (x y i : Nat) (b : Bool), x < 2 ^ c.FW → y < 2 ^ c.FW → i < 2 ^ c.FW →
    decode c (wordOf c (0x0321 + 0x1000 * b.toNat) x y i 0) = .error .sliceMode) ∧
  (∀ (s : State) (sl : SliceOperand) (i : Nat) (b : Bool),
    (¬ LegalSlice s.cfg.N sl → exec (.sset sl i b) s = raise .sliceBounds s) ∧
    (∀ lo width, Denotes s.cfg.N sl lo width →
      (width ≤ i → exec (.sset sl i b) s = raise .sliceIndex s) ∧
      (i < width → ∃ v : BitVec s.cfg.N, exec (.sset sl i b) s = .next { s with V := v } ∧
        v.getLsbD (lo + i) = b ∧ ∀ k, k ≠ lo + i → v.getLsbD k = s.V.getLsbD k)))

/-- R167: SFLIP; a following TEST of `lo + i` sees the new value. -/
def Obligations.SflipInvertsSliceBit : Prop :=
  (∀ (c : Config) (sl : SliceOperand) (i : Nat), sl.wf c = true → i < 2 ^ c.FW →
    decode c (wordOf c (sliceHeader 0x0022 sl) sl.field1 sl.field2 i 0) = .ok (.sflip sl i)) ∧
  (∀ (c : Config) (a b i : Nat), a < 2 ^ c.FW → b < 2 ^ c.FW → i < 2 ^ c.FW →
    decode c (wordOf c 0x0322 a b i 0) = .error .sliceMode) ∧
  (∀ (s : State) (sl : SliceOperand) (i : Nat),
    (¬ LegalSlice s.cfg.N sl → exec (.sflip sl i) s = raise .sliceBounds s) ∧
    (∀ lo width, Denotes s.cfg.N sl lo width →
      (width ≤ i → exec (.sflip sl i) s = raise .sliceIndex s) ∧
      (i < width → ∃ v : BitVec s.cfg.N, exec (.sflip sl i) s = .next { s with V := v } ∧
        v.getLsbD (lo + i) = !s.V.getLsbD (lo + i) ∧ (∀ k, k ≠ lo + i → v.getLsbD k = s.V.getLsbD k) ∧
        exec (.test (lo + i)) { s with V := v } = .next { s with V := v, F := !s.V.getLsbD (lo + i) })))

/-- R170: SRD. -/
def Obligations.SrdReadsSliceRightJustified : Prop :=
  (∀ (c : Config) (sl : SliceOperand) (Wd : Nat), sl.wf c = true → Wd < 2 ^ c.FW →
    decode c (wordOf c (sliceHeader 0x0023 sl) sl.field1 sl.field2 Wd 0) = .ok (.srd sl Wd)) ∧
  (∀ (c : Config) (a b Wd : Nat), a < 2 ^ c.FW → b < 2 ^ c.FW → Wd < 2 ^ c.FW →
    decode c (wordOf c 0x0323 a b Wd 0) = .error .sliceMode) ∧
  (∀ (s : State) (sl : SliceOperand) (Wd : Nat),
    (¬ LegalSlice s.cfg.N sl → exec (.srd sl Wd) s = raise .sliceBounds s) ∧
    (LegalSlice s.cfg.N sl → s.cfg.DW < Wd → exec (.srd sl Wd) s = raise .portWidth s) ∧
    (∀ lo width, Denotes s.cfg.N sl lo width → Wd ≤ s.cfg.DW →
      ∃ r : BitVec s.cfg.DW, exec (.srd sl Wd) s = .next { s with R := r } ∧
        ∀ j, r.getLsbD j = (decide (j < min width Wd) && s.V.getLsbD (lo + j))))

/-- R172: a whole-slice write, bit by bit: inside the slice the source and 0 above its width, outside the slice
nothing changes; so the slice receives the source converted to its width. -/
def Obligations.SliceWriteBitByBit : Prop :=
  ∀ (N Ms lo width : Nat) (V : BitVec N) (src : BitVec Ms), lo + width ≤ N →
    (∀ k, k < N →
      (lo ≤ k ∧ k < lo + width ∧ k - lo < Ms → (sliceWrite V lo width src).getLsbD k = src.getLsbD (k - lo)) ∧
      (lo ≤ k ∧ k < lo + width ∧ Ms ≤ k - lo → (sliceWrite V lo width src).getLsbD k = false) ∧
      (k < lo ∨ lo + width ≤ k → (sliceWrite V lo width src).getLsbD k = V.getLsbD k)) ∧
    memRead (sliceWrite V lo width src) lo width = convert width src

/-- R173: SWR. -/
def Obligations.SwrWritesSliceFromDin : Prop :=
  (∀ (c : Config) (sl : SliceOperand) (Ws : Nat), sl.wf c = true → Ws < 2 ^ c.FW →
    decode c (wordOf c (sliceHeader 0x0024 sl) sl.field1 sl.field2 Ws 0) = .ok (.swr sl Ws)) ∧
  (∀ (c : Config) (a b Ws : Nat), a < 2 ^ c.FW → b < 2 ^ c.FW → Ws < 2 ^ c.FW →
    decode c (wordOf c 0x0324 a b Ws 0) = .error .sliceMode) ∧
  (∀ (s : State) (sl : SliceOperand) (Ws : Nat),
    (¬ LegalSlice s.cfg.N sl → exec (.swr sl Ws) s = raise .sliceBounds s) ∧
    (LegalSlice s.cfg.N sl → s.cfg.DW < Ws → exec (.swr sl Ws) s = raise .portWidth s) ∧
    (∀ lo width, Denotes s.cfg.N sl lo width → Ws ≤ s.cfg.DW →
      ∃ v : BitVec s.cfg.N, exec (.swr sl Ws) s = .next { s with V := v } ∧
        (∀ j, j < width → v.getLsbD (lo + j) = (decide (j < Ws) && s.port.din.getLsbD j)) ∧
        ∀ k, k < lo ∨ lo + width ≤ k → v.getLsbD k = s.V.getLsbD k))

/-- R174: SWRI, and that it is SWR with `Ws = 64`. -/
def Obligations.SwriWritesSliceFromScalar : Prop :=
  (∀ (c : Config) (sl : SliceOperand), sl.wf c = true →
    decode c (wordOf c (sliceHeader 0x0025 sl) sl.field1 sl.field2 0 0) = .ok (.swri sl)) ∧
  (∀ (c : Config) (a b : Nat), a < 2 ^ c.FW → b < 2 ^ c.FW →
    decode c (wordOf c 0x0325 a b 0 0) = .error .sliceMode) ∧
  (∀ (s : State) (sl : SliceOperand),
    (¬ LegalSlice s.cfg.N sl → exec (.swri sl) s = raise .sliceBounds s) ∧
    (∀ lo width, Denotes s.cfg.N sl lo width →
      ∃ v : BitVec s.cfg.N, exec (.swri sl) s = .next { s with V := v } ∧
        (∀ j, j < width → v.getLsbD (lo + j) = (decide (j < 64) && s.port.din.getLsbD j)) ∧
        ∀ k, k < lo ∨ lo + width ≤ k → v.getLsbD k = s.V.getLsbD k) ∧
    exec (.swri sl) s = exec (.swr sl 64) s)

/-- R175: SWRS, and that a slice copied to its own place leaves V as it was. -/
def Obligations.SwrsCopiesSlice : Prop :=
  (∀ (c : Config) (dst src : SliceOperand), dst.wf c = true → src.wf c = true →
    decode c (wordOf c (sliceHeader 0x0026 dst + 0x400 * src.mode.toNat) dst.field1 dst.field2 src.field1 src.field2)
      = .ok (.swrs dst src)) ∧
  (∀ (c : Config) (m x y z u : Nat), m < 4 → x < 2 ^ c.FW → y < 2 ^ c.FW → z < 2 ^ c.FW → u < 2 ^ c.FW →
    decode c (wordOf c (0x0326 + 0x400 * m) x y z u) = .error .sliceMode ∧
    decode c (wordOf c (0x0C26 + 0x100 * m) x y z u) = .error .sliceMode) ∧
  (∀ (s : State) (dst src : SliceOperand),
    (¬ LegalSlice s.cfg.N dst ∨ ¬ LegalSlice s.cfg.N src → exec (.swrs dst src) s = raise .sliceBounds s) ∧
    (∀ lo width lo2 width2, Denotes s.cfg.N dst lo width → Denotes s.cfg.N src lo2 width2 →
      ∃ v : BitVec s.cfg.N, exec (.swrs dst src) s = .next { s with V := v } ∧
        (∀ j, j < width → v.getLsbD (lo + j) = (decide (j < width2) && s.V.getLsbD (lo2 + j))) ∧
        ∀ k, k < lo ∨ lo + width ≤ k → v.getLsbD k = s.V.getLsbD k) ∧
    (LegalSlice s.cfg.N dst → exec (.swrs dst dst) s = .next s))

/-- R176: SWRS gives what copying the source slice into an independent temporary and then writing the temporary
gives: it equals SWR of the temporary on `din`, for overlapping slices too. -/
def Obligations.SwrsEqualsWriteOfCapturedSource : Prop :=
  ∀ (s : State) (dst src : SliceOperand) (lo2 width2 : Nat) (tmp : BitVec s.cfg.DW),
    Denotes s.cfg.N src lo2 width2 → tmp.toNat = s.V.toNat / 2 ^ lo2 % 2 ^ width2 →
    mapNext State.nextSlot (exec (.swrs dst src) s) =
      mapNext State.nextSlot
        (exec (.swr dst width2) { s with host := { s.port with din := tmp } :: s.host.tail })

/-- R177: SGET and TEST of the same bit agree, and SRD at the slice's own width gives the bits of V. -/
def Obligations.SliceReadsAreConsistent : Prop :=
  ∀ (s : State) (sl : SliceOperand) (lo width : Nat), Denotes s.cfg.N sl lo width →
    (∀ i, i < width → exec (.sget sl i) s = exec (.test (lo + i)) s) ∧
    ∃ r : BitVec s.cfg.DW, exec (.srd sl width) s = .next { s with R := r } ∧
      r.toNat = s.V.toNat / 2 ^ lo % 2 ^ width

/-! ### Whole-machine rules -/

/-- 10_state.md section 8, R23, R24, 20_memory.md R63: what a command that answers a next state leaves as it was.
V, R and F change only by the commands that write them; the build and the host's slots never; the record of a
violation only by a violation, which changes nothing else. -/
def Obligations.CommandsWriteOnlyTheirRegisters : Prop :=
  ∀ (i : Instr) (s t : State), exec i s = .next t →
    ∃ (V' : BitVec s.cfg.N) (R' : BitVec s.cfg.DW) (F' FAULT' : Bool) (CAUSE' : CauseCode)
      (FCMD' : BitVec s.cfg.CW),
      t = { s with V := V', R := R', F := F', FAULT := FAULT', CAUSE := CAUSE', FCMD := FCMD' } ∧
      (writesV i = false → V' = s.V) ∧ (writesR i = false → R' = s.R) ∧ (writesF i = false → F' = s.F) ∧
      ((∀ k, ¬ Breaks s.cfg i k) → FAULT' = s.FAULT ∧ CAUSE' = s.CAUSE ∧ FCMD' = s.FCMD) ∧
      ((∃ k, Breaks s.cfg i k) → V' = s.V ∧ R' = s.R ∧ F' = s.F)

/-- R25: F changes by no command outside the list of R24, and no command's behaviour depends on F or R: from states
that differ only there, a command answers the same, and writes the same R or F where it writes one. -/
def Obligations.NoCommandReadsResultRegisters : Prop :=
  ∀ (i : Instr) (s : State) (r : BitVec s.cfg.DW) (f : Bool),
    (∀ t, writesF i = false → exec i s = .next t → t.F = s.F) ∧
    mapNext (fun t => { t with R := 0#t.cfg.DW, F := false }) (exec i { s with R := r, F := f }) =
      mapNext (fun t => { t with R := 0#t.cfg.DW, F := false }) (exec i s) ∧
    ((∀ k, ¬ Breaks s.cfg i k) → writesR i = true →
      mapNext (fun t => { t with F := false }) (exec i { s with R := r, F := f }) =
        mapNext (fun t => { t with F := false }) (exec i s)) ∧
    ((∀ k, ¬ Breaks s.cfg i k) → writesF i = true →
      mapNext (fun t => { t with R := 0#t.cfg.DW }) (exec i { s with R := r, F := f }) =
        mapNext (fun t => { t with R := 0#t.cfg.DW }) (exec i s))

/-- 10_state.md R32: a command whose source is not on `din` ignores `din`. -/
def Obligations.DinIgnoredByOtherCommands : Prop :=
  ∀ (i : Instr) (s : State) (din : BitVec s.cfg.DW), readsDin i = false →
    mapNext State.nextSlot (exec i { s with host := { s.port with din := din } :: s.host.tail }) =
      mapNext State.nextSlot (exec i s)

/-- R56: a command that only reads V changes no bit of it, writes only R or F, and changes nothing when repeated;
CLR, LOAD, SET, RESET,
SSET, SWR, SWRI, and SWRS with slices that do not overlap, are idempotent; SWRS in general is not; FLIP and SFLIP
restore V the second time. -/
def Obligations.RepeatedCommands : Prop :=
  (∀ (i : Instr) (s t : State), exec i s = .next t →
    (onlyReadsV i = true → t.V.toNat = s.V.toNat ∧ exec i t = .next t ∧
      ((∀ k, ¬ Breaks s.cfg i k) → ∃ (R' : BitVec s.cfg.DW) (F' : Bool), t = { s with R := R', F := F' })) ∧
    ((∃ Ws k b sl, i = .clr ∨ i = .load Ws ∨ i = .set k b ∨ i = .reset k ∨ i = .sset sl k b ∨ i = .swr sl Ws ∨
        i = .swri sl) → exec i t = .next t) ∧
    (∀ dst src lo width lo2 width2, i = .swrs dst src → Denotes s.cfg.N dst lo width →
      Denotes s.cfg.N src lo2 width2 → (∀ k, ¬ (lo ≤ k ∧ k < lo + width ∧ lo2 ≤ k ∧ k < lo2 + width2)) →
      exec i t = .next t) ∧
    ((∃ k sl, i = .flip k ∨ i = .sflip sl k) → ∃ u, exec i t = .next u ∧ u.V.toNat = s.V.toNat)) ∧
  (∃ (dst src : SliceOperand) (s t u : State), exec (.swrs dst src) s = .next t ∧
    exec (.swrs dst src) t = .next u ∧ u.V.toNat ≠ t.V.toNat)

/-- R82: the pseudo-instructions, and the effects their grounds name: SET and SSET write 1, LDSC and RDSC move 64
bits, SZERO clears the slice, COPYV copies. -/
def Obligations.PseudoInstructionsExpand : Prop :=
  (∀ (i : Nat) (sl : SliceOperand) (Ws : Nat),
    (Pseudo.setOne i).expand = .set i true ∧ (Pseudo.ssetOne sl i).expand = .sset sl i true ∧
    Pseudo.ldsc.expand = .load 64 ∧ Pseudo.rdsc.expand = .readv 64 ∧ (Pseudo.szero sl).expand = .swr sl 0 ∧
    (Pseudo.copyv Ws).expand = .conv Ws Ws) ∧
  (∀ (s : State),
    (∃ v : BitVec s.cfg.N, exec Pseudo.ldsc.expand s = .next { s with V := v } ∧
      ∀ k, k < s.cfg.N → v.getLsbD k = (decide (k < 64) && s.port.din.getLsbD k)) ∧
    (∃ r : BitVec s.cfg.DW, exec Pseudo.rdsc.expand s = .next { s with R := r } ∧
      r.toNat = s.V.toNat % 2 ^ 64) ∧
    (∀ sl lo width, Denotes s.cfg.N sl lo width →
      ∃ v : BitVec s.cfg.N, exec (Pseudo.szero sl).expand s = .next { s with V := v } ∧
        ∀ k, v.getLsbD k = (decide (k < lo ∨ lo + width ≤ k) && s.V.getLsbD k)) ∧
    (∀ Ws, Ws ≤ s.cfg.DW → ∃ r : BitVec s.cfg.DW, exec (Pseudo.copyv Ws).expand s = .next { s with R := r } ∧
      r.toNat = s.port.din.toNat % 2 ^ Ws))
end

