-- ==== Sys2Proof/Laws/State.lean ====
section
/-! SUPPORT. One lemma for each field and each named update of State. -/

namespace Sys2Proof.Machine

section
variable (s : State)

@[simp] theorem writeV_cfg (v : BitVec s.cfg.N) : (s.writeV v).cfg = s.cfg := rfl
@[simp] theorem writeV_V (v : BitVec s.cfg.N) : (s.writeV v).V = v := rfl
@[simp] theorem writeV_R (v : BitVec s.cfg.N) : (s.writeV v).R = s.R := rfl
@[simp] theorem writeV_F (v : BitVec s.cfg.N) : (s.writeV v).F = s.F := rfl
@[simp] theorem writeV_FAULT (v : BitVec s.cfg.N) : (s.writeV v).FAULT = s.FAULT := rfl
@[simp] theorem writeV_CAUSE (v : BitVec s.cfg.N) : (s.writeV v).CAUSE = s.CAUSE := rfl
@[simp] theorem writeV_FCMD (v : BitVec s.cfg.N) : (s.writeV v).FCMD = s.FCMD := rfl
@[simp] theorem writeV_host (v : BitVec s.cfg.N) : (s.writeV v).host = s.host := rfl

@[simp] theorem writeR_cfg {M : Nat} (x : BitVec M) : (s.writeR x).cfg = s.cfg := rfl
@[simp] theorem writeR_V {M : Nat} (x : BitVec M) : (s.writeR x).V = s.V := rfl
@[simp] theorem writeR_R {M : Nat} (x : BitVec M) : (s.writeR x).R = convert s.cfg.DW x := rfl
@[simp] theorem writeR_F {M : Nat} (x : BitVec M) : (s.writeR x).F = s.F := rfl
@[simp] theorem writeR_FAULT {M : Nat} (x : BitVec M) : (s.writeR x).FAULT = s.FAULT := rfl
@[simp] theorem writeR_CAUSE {M : Nat} (x : BitVec M) : (s.writeR x).CAUSE = s.CAUSE := rfl
@[simp] theorem writeR_FCMD {M : Nat} (x : BitVec M) : (s.writeR x).FCMD = s.FCMD := rfl
@[simp] theorem writeR_host {M : Nat} (x : BitVec M) : (s.writeR x).host = s.host := rfl

@[simp] theorem writeF_cfg (b : Bool) : (s.writeF b).cfg = s.cfg := rfl
@[simp] theorem writeF_V (b : Bool) : (s.writeF b).V = s.V := rfl
@[simp] theorem writeF_R (b : Bool) : (s.writeF b).R = s.R := rfl
@[simp] theorem writeF_F (b : Bool) : (s.writeF b).F = b := rfl
@[simp] theorem writeF_FAULT (b : Bool) : (s.writeF b).FAULT = s.FAULT := rfl
@[simp] theorem writeF_CAUSE (b : Bool) : (s.writeF b).CAUSE = s.CAUSE := rfl
@[simp] theorem writeF_FCMD (b : Bool) : (s.writeF b).FCMD = s.FCMD := rfl
@[simp] theorem writeF_host (b : Bool) : (s.writeF b).host = s.host := rfl

@[simp] theorem nextSlot_cfg : s.nextSlot.cfg = s.cfg := rfl
@[simp] theorem nextSlot_V : s.nextSlot.V = s.V := rfl
@[simp] theorem nextSlot_R : s.nextSlot.R = s.R := rfl
@[simp] theorem nextSlot_F : s.nextSlot.F = s.F := rfl
@[simp] theorem nextSlot_FAULT : s.nextSlot.FAULT = s.FAULT := rfl
@[simp] theorem nextSlot_CAUSE : s.nextSlot.CAUSE = s.CAUSE := rfl
@[simp] theorem nextSlot_FCMD : s.nextSlot.FCMD = s.FCMD := rfl
@[simp] theorem nextSlot_host : s.nextSlot.host = s.host.tail := rfl

@[simp] theorem applyReset_cfg : s.applyReset.cfg = s.cfg := rfl
@[simp] theorem applyReset_V : s.applyReset.V = s.cfg.INIT := rfl
@[simp] theorem applyReset_R : s.applyReset.R = 0#s.cfg.DW := rfl
@[simp] theorem applyReset_F : s.applyReset.F = false := rfl
@[simp] theorem applyReset_FAULT : s.applyReset.FAULT = false := rfl
@[simp] theorem applyReset_CAUSE : s.applyReset.CAUSE = 0#4 := rfl
@[simp] theorem applyReset_FCMD : s.applyReset.FCMD = 0#s.cfg.CW := rfl
@[simp] theorem applyReset_host : s.applyReset.host = s.host := rfl

end

/-- The wires of a state whose next slot is known. -/
@[simp] theorem port_cons (c : Config) (V : BitVec c.N) (R : BitVec c.DW) (F FAULT : Bool) (CAUSE : CauseCode)
    (FCMD : BitVec c.CW) (p : Port c) (ps : List (Port c)) :
    State.port ⟨c, V, R, F, FAULT, CAUSE, FCMD, p :: ps⟩ = p := rfl

/-- `err` is FAULT, hardwired 0 in an unchecked block. -/
theorem err_eq (s : State) : s.err = (s.cfg.CHECKED && s.FAULT) := by
  unfold State.err State.status
  generalize s.cfg.CHECKED = b, s.CAUSE = c, s.FAULT = f
  revert b c f; decide

theorem cmd_ready_eq (s : State) : s.cmd_ready = !(s.cfg.CHECKED && s.FAULT) := by
  rw [State.cmd_ready, err_eq]

theorem halted_iff (s : State) : s.halted ↔ s.cfg.CHECKED = true ∧ s.FAULT = true := by
  rw [State.halted, err_eq, Bool.and_eq_true]

end Sys2Proof.Machine
end

