-- ==== Sys2Proof/Laws/Decode.lean ====
section
/-! SUPPORT. The fields of a word and the word of fields, and the slice operand of fields. -/

namespace Sys2Proof

/-- A slice operand is the one its own fields name. -/
@[simp] theorem SliceOperand.ofFields_fields (sl : SliceOperand) :
    SliceOperand.ofFields sl.mode sl.field1 sl.field2 = some sl := by
  cases sl <;> rfl

/-- The fields that name a slice operand are its own. -/
theorem SliceOperand.fields_of_ofFields {m : ModeField} {f1 f2 : Nat} {sl : SliceOperand}
    (h : SliceOperand.ofFields m f1 f2 = some sl) : sl.mode = m ∧ sl.field1 = f1 ∧ sl.field2 = f2 := by
  have hm : ∀ m : ModeField, m = 0#2 ∨ m = 1#2 ∨ m = 2#2 ∨ m = 3#2 := by decide
  rcases hm m with rfl | rfl | rfl | rfl <;>
    first | (cases h; exact ⟨rfl, rfl, rfl⟩) | cases h

/-- Mode 3 names no slice operand (R77). -/
theorem SliceOperand.ofFields_eq_none {m : ModeField} {f1 f2 : Nat} :
    SliceOperand.ofFields m f1 f2 = none ↔ m = 3#2 := by
  have hm : ∀ m : ModeField, m = 0#2 ∨ m = 1#2 ∨ m = 2#2 ∨ m = 3#2 := by decide
  rcases hm m with rfl | rfl | rfl | rfl <;> simp [SliceOperand.ofFields]

namespace Fields

open Machine

/-- A plain command decodes just when the fields its format marks 0 are 0. -/
theorem plain_eq_ok {f : Fields} {fmt : Format} {i j : Instr} :
    f.plain fmt i = .ok j ↔ f.unusedZero fmt = true ∧ i = j := by
  unfold plain
  split <;> simp_all

/-- A command with one slice operand decodes just when its format's zero fields are 0 and MD names a form. -/
theorem sliced_eq_ok {f : Fields} {fmt : Format} {mk : SliceOperand → Instr} {j : Instr} :
    f.sliced fmt mk = .ok j ↔
      f.unusedZero fmt = true ∧ ∃ sl, SliceOperand.ofFields f.MD f.A f.B = some sl ∧ mk sl = j := by
  unfold sliced
  split
  · split <;> simp_all
  · simp_all

/-- A command with two slice operands decodes just when its format's zero fields are 0 and MD and MS name forms. -/
theorem sliced2_eq_ok {f : Fields} {fmt : Format} {mk : SliceOperand → SliceOperand → Instr} {j : Instr} :
    f.sliced2 fmt mk = .ok j ↔
      f.unusedZero fmt = true ∧ ∃ dst src, SliceOperand.ofFields f.MD f.A f.B = some dst ∧
        SliceOperand.ofFields f.MS f.C f.D = some src ∧ mk dst src = j := by
  unfold sliced2
  split
  · split
    · simp_all
    · rename_i hn
      constructor
      · intro h; cases h
      · rintro ⟨-, dst, src, hd, hs, -⟩
        exact absurd hs (hn dst src hd)
  · simp_all

/-- A word made of fields, bit by bit. -/
theorem toWord_getLsbD (c : Config) (f : Fields) (k : Nat) :
    (f.toWord c).getLsbD k =
      (if k < 16 then f.header.getLsbD k
       else if k < 16 + c.FW then f.A.testBit (k - 16)
       else if k < 16 + 2 * c.FW then f.B.testBit (k - (16 + c.FW))
       else if k < 16 + 3 * c.FW then f.C.testBit (k - (16 + 2 * c.FW))
       else decide (k < 16 + 4 * c.FW) && f.D.testBit (k - (16 + 3 * c.FW))) := by
  simp only [toWord, BitVec.getLsbD_setWidth, BitVec.getLsbD_append, BitVec.getLsbD_ofNat]
  rw [show k - 16 - c.FW = k - (16 + c.FW) by omega, show k - (16 + c.FW) - c.FW = k - (16 + 2 * c.FW) by omega,
    show k - (16 + 2 * c.FW) - c.FW = k - (16 + 3 * c.FW) by omega]
  by_cases h0 : k < 16
  · simp only [h0, show k < c.CW by simp only [Config.CW]; omega, if_true, decide_true, Bool.true_and]
  by_cases h1 : k < 16 + c.FW
  · simp only [h0, h1, show k < c.CW by simp only [Config.CW]; omega, show k - 16 < c.FW by omega, if_true,
      if_false, decide_true, Bool.true_and]
  by_cases h2 : k < 16 + 2 * c.FW
  · simp only [h0, h1, h2, show k < c.CW by simp only [Config.CW]; omega, show ¬ k - 16 < c.FW by omega,
      show k - (16 + c.FW) < c.FW by omega, if_true, if_false, decide_true, Bool.true_and]
  by_cases h3 : k < 16 + 3 * c.FW
  · simp only [h0, h1, h2, h3, show k < c.CW by simp only [Config.CW]; omega, show ¬ k - 16 < c.FW by omega,
      show ¬ k - (16 + c.FW) < c.FW by omega, show k - (16 + 2 * c.FW) < c.FW by omega, if_true, if_false,
      decide_true, Bool.true_and]
  · simp only [h0, h1, h2, h3, show ¬ k - 16 < c.FW by omega, show ¬ k - (16 + c.FW) < c.FW by omega,
      show ¬ k - (16 + 2 * c.FW) < c.FW by omega, if_false]
    by_cases h4 : k < 16 + 4 * c.FW
    · simp only [h4, show k - (16 + 3 * c.FW) < c.FW by omega, decide_true, Bool.true_and]
    · simp only [h4, decide_false, Bool.false_and]

/-- An operand field that fits is read back from its place. -/
theorem operand_of_bits {n : Nat} (c : Config) (w : BitVec n) (start x : Nat) (hx : x < 2 ^ c.FW)
    (h : ∀ j, j < c.FW → w.getLsbD (start + j) = x.testBit j) : (w.extractLsb' start c.FW).toNat = x := by
  apply Nat.eq_of_testBit_eq
  intro j
  rw [BitVec.testBit_toNat, BitVec.getLsbD_extractLsb']
  by_cases hj : j < c.FW
  · simp [hj, h j hj]
  · have : x < 2 ^ j := Nat.lt_of_lt_of_le hx (Nat.pow_le_pow_right (by decide) (Nat.not_lt.mp hj))
    simp [hj, Nat.testBit_lt_two_pow this]

/-- The low 16 bits of a word made of fields are its header. -/
theorem toWord_header (c : Config) (f : Fields) : (f.toWord c).setWidth 16 = f.header := by
  apply BitVec.eq_of_getLsbD_eq
  intro k hk
  simp [hk, toWord_getLsbD]

/-- The header fields of a word are those of its low 16 bits. -/
theorem headerField_setWidth {n : Nat} (w : BitVec n) {start len : Nat} (h : start + len ≤ 16) :
    w.extractLsb' start len = (w.setWidth 16).extractLsb' start len := by
  apply BitVec.eq_of_getLsbD_eq
  intro k hk
  have : start + k < 16 := by omega
  simp [hk, this]

/-- The header of the header's own fields. -/
theorem header_extract (h : Header) :
    h.extractLsb' 13 3 ++ BitVec.ofBool (h.getLsbD 12) ++ h.extractLsb' 10 2 ++ h.extractLsb' 8 2
      ++ h.extractLsb' 0 8 = h := by
  apply BitVec.eq_of_getLsbD_eq
  intro k hk
  simp only [BitVec.getLsbD_append, BitVec.getLsbD_extractLsb', BitVec.getLsbD_ofBool]
  repeat' split
  · rw [decide_eq_true (by omega), Bool.true_and, Nat.zero_add]
  · rw [decide_eq_true (by omega), Bool.true_and]; congr 1; omega
  · rw [decide_eq_true (by omega), Bool.true_and]; congr 1; omega
  · rw [decide_eq_true (by omega), Bool.true_and]; congr 1; omega
  · rw [decide_eq_true (by omega), Bool.true_and]; congr 1; omega

/-- The fields of a header. -/
theorem header_fields (f : Fields) :
    f.header.extractLsb' 0 8 = f.OP ∧ f.header.extractLsb' 8 2 = f.MD ∧ f.header.extractLsb' 10 2 = f.MS ∧
      f.header.getLsbD 12 = f.VB ∧ f.header.extractLsb' 13 3 = f.RSV := by
  refine ⟨?_, ?_, ?_, ?_, ?_⟩
  all_goals
    first
    | apply BitVec.eq_of_getLsbD_eq
      intro k hk
      simp only [header, BitVec.getLsbD_extractLsb', BitVec.getLsbD_append, hk, decide_true, Bool.true_and]
      repeat' split
      all_goals first | omega | (congr 1; omega)
    | simp only [header, BitVec.getLsbD_append, BitVec.getLsbD_ofBool]
      rfl

/-- The fields of a word made of fields that fit. -/
theorem ofWord_toWord (c : Config) (f : Fields) (hA : f.A < 2 ^ c.FW) (hB : f.B < 2 ^ c.FW)
    (hC : f.C < 2 ^ c.FW) (hD : f.D < 2 ^ c.FW) : ofWord c (f.toWord c) = f := by
  obtain ⟨h1, h2, h3, h4, h5⟩ := f.header_fields
  have e1 : (f.toWord c).extractLsb' 0 8 = f.OP := by
    rw [headerField_setWidth _ (by decide), toWord_header, h1]
  have e2 : (f.toWord c).extractLsb' 8 2 = f.MD := by
    rw [headerField_setWidth _ (by decide), toWord_header, h2]
  have e3 : (f.toWord c).extractLsb' 10 2 = f.MS := by
    rw [headerField_setWidth _ (by decide), toWord_header, h3]
  have e4 : (f.toWord c).getLsbD 12 = f.VB := by
    rw [toWord_getLsbD, if_pos (by decide), h4]
  have e5 : (f.toWord c).extractLsb' 13 3 = f.RSV := by
    rw [headerField_setWidth _ (by decide), toWord_header, h5]
  have eA : ((f.toWord c).extractLsb' 16 c.FW).toNat = f.A := by
    refine operand_of_bits c _ _ _ hA fun j hj => ?_
    rw [toWord_getLsbD, if_neg (by omega), if_pos (by omega)]
    congr 1; omega
  have eB : ((f.toWord c).extractLsb' (16 + c.FW) c.FW).toNat = f.B := by
    refine operand_of_bits c _ _ _ hB fun j hj => ?_
    rw [toWord_getLsbD, if_neg (by omega), if_neg (by omega), if_pos (by omega)]
    congr 1; omega
  have eC : ((f.toWord c).extractLsb' (16 + 2 * c.FW) c.FW).toNat = f.C := by
    refine operand_of_bits c _ _ _ hC fun j hj => ?_
    rw [toWord_getLsbD, if_neg (by omega), if_neg (by omega), if_neg (by omega), if_pos (by omega)]
    congr 1; omega
  have eD : ((f.toWord c).extractLsb' (16 + 3 * c.FW) c.FW).toNat = f.D := by
    refine operand_of_bits c _ _ _ hD fun j hj => ?_
    rw [toWord_getLsbD, if_neg (by omega), if_neg (by omega), if_neg (by omega), if_neg (by omega),
      decide_eq_true (by omega), Bool.true_and]
    congr 1; omega
  simp only [ofWord, e1, e2, e3, e4, e5, eA, eB, eC, eD]

/-- The word of a word's fields. -/
theorem toWord_ofWord (c : Config) (w : BitVec c.CW) : (ofWord c w).toWord c = w := by
  apply BitVec.eq_of_getLsbD_eq
  intro k hk
  have hh : (ofWord c w).header = w.setWidth 16 := by
    rw [← header_extract (w.setWidth 16)]
    simp only [header, ofWord, headerField_setWidth w (start := 0) (len := 8) (by decide),
      headerField_setWidth w (start := 8) (len := 2) (by decide),
      headerField_setWidth w (start := 10) (len := 2) (by decide),
      headerField_setWidth w (start := 13) (len := 3) (by decide), BitVec.getLsbD_setWidth]
    simp
  have hk' : k < 16 + 4 * c.FW := hk
  rw [toWord_getLsbD, hh]
  simp only [ofWord, BitVec.testBit_toNat, BitVec.getLsbD_extractLsb', BitVec.getLsbD_setWidth]
  repeat' split
  · simp only [*, decide_true, Bool.true_and]
  · rw [decide_eq_true (by omega), Bool.true_and]; congr 1; omega
  · rw [decide_eq_true (by omega), Bool.true_and]; congr 1; omega
  · rw [decide_eq_true (by omega), Bool.true_and]; congr 1; omega
  · rw [decide_eq_true (by omega), decide_eq_true (by omega), Bool.true_and, Bool.true_and]; congr 1; omega

/-- A field of a word, by its bit numbers. -/
theorem extract_toNat {n : Nat} (w : BitVec n) (start len : Nat) :
    (w.extractLsb' start len).toNat = w.toNat / 2 ^ start % 2 ^ len := by
  rw [BitVec.extractLsb'_toNat, Nat.shiftRight_eq_div_pow]

/-- The number a word with fields that fit stands for. -/
theorem wordOf_toNat (c : Config) {h A B C D : Nat} (hh : h < 2 ^ 16) (hA : A < 2 ^ c.FW) (hB : B < 2 ^ c.FW)
    (hC : C < 2 ^ c.FW) (hD : D < 2 ^ c.FW) :
    (wordOf c h A B C D).toNat = h + 2 ^ 16 * (A + 2 ^ c.FW * (B + 2 ^ c.FW * (C + 2 ^ c.FW * D))) := by
  have e : h + 2 ^ 16 * A + 2 ^ (16 + c.FW) * B + 2 ^ (16 + 2 * c.FW) * C + 2 ^ (16 + 3 * c.FW) * D =
      h + 2 ^ 16 * (A + 2 ^ c.FW * (B + 2 ^ c.FW * (C + 2 ^ c.FW * D))) := by ring
  have p : 2 ^ (16 + 4 * c.FW) = 2 ^ 16 * (2 ^ c.FW * (2 ^ c.FW * (2 ^ c.FW * 2 ^ c.FW))) := by ring
  have b {x y P Q : Nat} (hx : x < P) (hy : y < Q) : x + P * y < P * Q :=
    calc x + P * y < P + P * y := by omega
      _ = P * (y + 1) := by ring
      _ ≤ P * Q := Nat.mul_le_mul_left P hy
  rw [wordOf, BitVec.toNat_ofNat, e]
  apply Nat.mod_eq_of_lt
  rw [Config.CW, p]
  exact b hh (b hA (b hB (b hC hD)))

/-- The fields of a word given by its header and operand fields that fit. -/
theorem ofWord_wordOf (c : Config) {h A B C D : Nat} (hh : h < 2 ^ 16) (hA : A < 2 ^ c.FW) (hB : B < 2 ^ c.FW)
    (hC : C < 2 ^ c.FW) (hD : D < 2 ^ c.FW) :
    ofWord c (wordOf c h A B C D) =
      { OP := BitVec.ofNat 8 h, MD := BitVec.ofNat 2 (h / 2 ^ 8), MS := BitVec.ofNat 2 (h / 2 ^ 10),
        VB := h.testBit 12, RSV := BitVec.ofNat 3 (h / 2 ^ 13), A := A, B := B, C := C, D := D } := by
  have w := wordOf_toNat c hh hA hB hC hD
  generalize hX : A + 2 ^ c.FW * (B + 2 ^ c.FW * (C + 2 ^ c.FW * D)) = X at w
  have hdr (s l : Nat) (hl : s + l ≤ 16) :
      (wordOf c h A B C D).extractLsb' s l = BitVec.ofNat l (h / 2 ^ s) := by
    apply BitVec.eq_of_toNat_eq
    rw [extract_toNat, w, BitVec.toNat_ofNat]
    have : 2 ^ 16 = 2 ^ s * (2 ^ l * 2 ^ (16 - s - l)) := by
      rw [← pow_add, ← pow_add]; congr 1; omega
    rw [this, mul_assoc, Nat.add_mul_div_left _ _ (Nat.two_pow_pos s), mul_assoc, Nat.add_mul_mod_self_left]
  have h16 : (h + 2 ^ 16 * X) / 2 ^ 16 = X := by omega
  have P := Nat.two_pow_pos c.FW
  have op {x y : Nat} (hx : x < 2 ^ c.FW) : (x + 2 ^ c.FW * y) % 2 ^ c.FW = x ∧ (x + 2 ^ c.FW * y) / 2 ^ c.FW = y := by
    rw [Nat.add_mul_mod_self_left, Nat.mod_eq_of_lt hx, Nat.add_mul_div_left _ _ P, Nat.div_eq_of_lt hx, zero_add]
    exact ⟨rfl, rfl⟩
  have e1 : 2 ^ (16 + c.FW) = 2 ^ 16 * 2 ^ c.FW := by ring
  have e2 : 2 ^ (16 + 2 * c.FW) = 2 ^ 16 * 2 ^ c.FW * 2 ^ c.FW := by ring
  have e3 : 2 ^ (16 + 3 * c.FW) = 2 ^ 16 * 2 ^ c.FW * 2 ^ c.FW * 2 ^ c.FW := by ring
  have vb : (wordOf c h A B C D).getLsbD 12 = h.testBit 12 := by
    rw [← BitVec.testBit_toNat, w, show h + 2 ^ 16 * X = 2 ^ 16 * X + h by omega,
      Nat.testBit_two_pow_mul_add X hh, if_pos (by decide)]
  simp only [ofWord, vb, hdr 0 8 (by decide), hdr 8 2 (by decide), hdr 10 2 (by decide), hdr 13 3 (by decide),
    extract_toNat, w, e1, e2, e3, ← Nat.div_div_eq_div_mul, h16, pow_zero, Nat.div_one]
  simp only [← hX, op hA, op hB, op hC, Nat.mod_eq_of_lt hD]
end Fields

end Sys2Proof
end

