-- ==== Sys2Proof/Laws/Ops.lean ====
section
/-! SUPPORT. One lemma for each value operation and each shared check, saying once everything it can do. -/

namespace Sys2Proof.Machine

/-! ### Values, bit by bit -/

theorem convert_getLsbD {M : Nat} (D : Nat) (x : BitVec M) (j : Nat) :
    (convert D x).getLsbD j = (decide (j < D) && x.getLsbD j) := BitVec.getLsbD_setWidth ..

theorem convert_toNat {M : Nat} (D : Nat) (x : BitVec M) : (convert D x).toNat = x.toNat % 2 ^ D :=
  BitVec.toNat_setWidth ..

theorem maskBits_getLsbD (D w j : Nat) : (maskBits D w).getLsbD j = (decide (j < D) && decide (j < w)) := by
  simp [maskBits, BitVec.getLsbD_ofNat, Nat.testBit_two_pow_sub_one]

theorem maskBits_toNat {D w : Nat} (h : w ≤ D) : (maskBits D w).toNat = 2 ^ w - 1 := by
  have : 2 ^ w ≤ 2 ^ D := Nat.pow_le_pow_right (by decide) h
  have : 0 < 2 ^ w := Nat.two_pow_pos w
  simp only [maskBits, BitVec.toNat_ofNat]
  exact Nat.mod_eq_of_lt (by omega)

theorem memRead_getLsbD {N : Nat} (V : BitVec N) (lo n j : Nat) :
    (memRead V lo n).getLsbD j = (decide (j < n) && V.getLsbD (lo + j)) := BitVec.getLsbD_extractLsb' ..

theorem writeBit_getLsbD {N : Nat} (V : BitVec N) {i : Nat} (b : Bool) (k : Nat) (hi : i < N) :
    (writeBit V i b).getLsbD k = if k = i then b else V.getLsbD k := by
  simp only [writeBit, BitVec.getLsbD_or, BitVec.getLsbD_and, BitVec.getLsbD_not, BitVec.getLsbD_shiftLeft,
    BitVec.getLsbD_setWidth, BitVec.getLsbD_ofBool, BitVec.getLsbD_one]
  by_cases hk : k = i
  · subst hk
    have : 0 < N := by omega
    simp [hi, this]
  · by_cases hN : k < N
    · by_cases hlt : k < i
      · simp [hk, hN, hlt]
      · have : k - i ≠ 0 := by omega
        simp [hk, hN, hlt, this]
    · simp [hk, hN, BitVec.getLsbD_of_ge V k (by omega)]

theorem sliceWrite_getLsbD {N M : Nat} (V : BitVec N) (lo width : Nat) (s : BitVec M) (k : Nat) (hk : k < N) :
    (sliceWrite V lo width s).getLsbD k =
      if lo ≤ k ∧ k < lo + width then s.getLsbD (k - lo) else V.getLsbD k := by
  simp only [sliceWrite, BitVec.getLsbD_or, BitVec.getLsbD_and, BitVec.getLsbD_not, BitVec.getLsbD_shiftLeft,
    convert_getLsbD, maskBits_getLsbD]
  by_cases h1 : k < lo
  · simp [hk, h1, Nat.not_le.mpr h1]
  · have h2 : k - lo < N := by omega
    by_cases h3 : k < lo + width
    · have h4 : k - lo < width := by omega
      simp [hk, h1, h2, h3, h4, Nat.not_lt.mp h1]
    · have h4 : ¬ k - lo < width := by omega
      simp [hk, h1, h3, h4]

/-! ### Checks -/

/-- A violation records and keeps V, R and F, or is undefined behaviour. -/
theorem raise_eq (c : Cause) (s : State) :
    raise c s = if s.cfg.CHECKED = true then
        .next { s with FAULT := true, CAUSE := c.code, FCMD := s.port.cmd }
      else .fault (.undefinedBehaviour c) := rfl

theorem require_of {ok : Bool} (h : ok = true) (c : Cause) (s : State) (k : Result) : require ok c s k = k := by
  rw [require, if_pos h]

theorem require_of_not {ok : Bool} (h : ok = false) (c : Cause) (s : State) (k : Result) :
    require ok c s k = raise c s := by
  rw [require, h]; rfl

theorem needPort_of {s : State} {w : Nat} (h : w ≤ s.cfg.DW) (k : Result) : needPort s w k = k :=
  require_of (decide_eq_true h) ..

theorem needPort_of_not {s : State} {w : Nat} (h : s.cfg.DW < w) (k : Result) :
    needPort s w k = raise .portWidth s :=
  require_of_not (decide_eq_false (Nat.not_le.mpr h)) ..

theorem needBit_of {s : State} {i : Nat} (h : i < s.cfg.N) (k : Result) : needBit s i k = k :=
  require_of (decide_eq_true h) ..

theorem needBit_of_not {s : State} {i : Nat} (h : s.cfg.N ≤ i) (k : Result) : needBit s i k = raise .bitIndex s :=
  require_of_not (decide_eq_false (Nat.not_lt.mpr h)) ..

/-! ### Slice operands -/

theorem resolve_eq_some {N : Nat} {sl : SliceOperand} {r : Slice} :
    resolve N sl = some r ↔ Denotes N sl r.lo r.width := by
  cases r
  cases sl <;> simp only [resolve, Denotes, LegalSlice, Option.ite_none_right_eq_some, Option.some.injEq,
    Slice.mk.injEq] <;> omega

theorem resolve_eq_none {N : Nat} {sl : SliceOperand} : resolve N sl = none ↔ ¬ LegalSlice N sl := by
  cases sl <;> simp [resolve, LegalSlice]

theorem Denotes.bound {N : Nat} {sl : SliceOperand} {lo width : Nat} (h : Denotes N sl lo width) :
    lo + width ≤ N := by
  cases sl <;> simp only [Denotes, LegalSlice] at h <;> omega

theorem Denotes.legal {N : Nat} {sl : SliceOperand} {lo width : Nat} (h : Denotes N sl lo width) :
    LegalSlice N sl := h.1

theorem LegalSlice.denotes {N : Nat} {sl : SliceOperand} (h : LegalSlice N sl) :
    ∃ lo width, Denotes N sl lo width := by
  cases hr : resolve N sl with
  | none => exact absurd h (resolve_eq_none.mp hr)
  | some r => exact ⟨r.lo, r.width, resolve_eq_some.mp hr⟩

theorem withSlice_of {s : State} {sl : SliceOperand} {lo width : Nat} (h : Denotes s.cfg.N sl lo width)
    (k : Slice → Result) : withSlice s sl k = k ⟨lo, width⟩ := by
  have hr : resolve s.cfg.N sl = some ⟨lo, width⟩ := resolve_eq_some.mpr h
  rw [withSlice, hr]

theorem withSlice_of_not {s : State} {sl : SliceOperand} (h : ¬ LegalSlice s.cfg.N sl) (k : Slice → Result) :
    withSlice s sl k = raise .sliceBounds s := by
  rw [withSlice, resolve_eq_none.mpr h]

theorem withSliceBit_of {s : State} {sl : SliceOperand} {lo width i : Nat} (h : Denotes s.cfg.N sl lo width)
    (hi : i < width) (k : Nat → Result) : withSliceBit s sl i k = k (lo + i) := by
  rw [withSliceBit, withSlice_of h, require_of (decide_eq_true hi)]

theorem withSliceBit_of_index {s : State} {sl : SliceOperand} {lo width i : Nat} (h : Denotes s.cfg.N sl lo width)
    (hi : width ≤ i) (k : Nat → Result) : withSliceBit s sl i k = raise .sliceIndex s := by
  rw [withSliceBit, withSlice_of h, require_of_not (decide_eq_false (Nat.not_lt.mpr hi))]

theorem withSliceBit_of_not {s : State} {sl : SliceOperand} {i : Nat} (h : ¬ LegalSlice s.cfg.N sl)
    (k : Nat → Result) : withSliceBit s sl i k = raise .sliceBounds s := withSlice_of_not h _

end Sys2Proof.Machine
end

