-- ==== Sys2Proof/Laws/PerInstr.lean ====
section
/-! SUPPORT. Laws stated of every instruction as syntax, one lemma for each constructor. -/

namespace Sys2Proof.Laws.FieldsRoundTrip

/-- The decoder reads an instruction back from the fields the encoder gives it. -/
def Statement (i : Instr) : Prop := decodeFields (encodeFields i) = .ok i

theorem mask (K w : Nat) : Statement (Instr.mask K w) := rfl
theorem conv (Ws Wd : Nat) : Statement (Instr.conv Ws Wd) := rfl
theorem clr : Statement Instr.clr := rfl
theorem load (Ws : Nat) : Statement (Instr.load Ws) := rfl
theorem readv (Wd : Nat) : Statement (Instr.readv Wd) := rfl
theorem test (i : Nat) : Statement (Instr.test i) := rfl
theorem set (i : Nat) (v : Bool) : Statement (Instr.set i v) := rfl
theorem reset (i : Nat) : Statement (Instr.reset i) := rfl
theorem flip (i : Nat) : Statement (Instr.flip i) := rfl
theorem any : Statement Instr.any := rfl
theorem all : Statement Instr.all := rfl
theorem none : Statement Instr.none := rfl
theorem count : Statement Instr.count := rfl
theorem eq : Statement Instr.eq := rfl
theorem sget (sl : SliceOperand) (i : Nat) : Statement (Instr.sget sl i) := by cases sl <;> rfl
theorem sset (sl : SliceOperand) (i : Nat) (v : Bool) : Statement (Instr.sset sl i v) := by cases sl <;> rfl
theorem sflip (sl : SliceOperand) (i : Nat) : Statement (Instr.sflip sl i) := by cases sl <;> rfl
theorem srd (sl : SliceOperand) (Wd : Nat) : Statement (Instr.srd sl Wd) := by cases sl <;> rfl
theorem swr (sl : SliceOperand) (Ws : Nat) : Statement (Instr.swr sl Ws) := by cases sl <;> rfl
theorem swri (sl : SliceOperand) : Statement (Instr.swri sl) := by cases sl <;> rfl
theorem swrs (dst src : SliceOperand) : Statement (Instr.swrs dst src) := by cases dst <;> cases src <;> rfl

end Sys2Proof.Laws.FieldsRoundTrip
end

