-- ==== Sys2Proof/Laws/Step.lean ====
section
/-! SUPPORT. What a command, a step and a run can do, said once for each. -/

namespace Sys2Proof.Machine

/-! ### Steps and runs -/

theorem passSlot_eq_mapNext (r : Result) : passSlot r = mapNext State.nextSlot r := by cases r <;> rfl

/-- A slot with an accepted command runs the command. -/
theorem step_of_accepted {s : State} (h1 : s.port.rst = false) (h2 : s.port.cmd_valid = true)
    (h3 : s.cmd_ready = true) : step s = mapNext State.nextSlot (runCommand s) := by
  simp [step, slot, State.accepts, h1, h2, h3, passSlot_eq_mapNext]

/-- A slot resets, passes with no effect, or runs a command. -/
theorem step_cases (s : State) :
    (s.port.rst = true ∧ step s = .next s.applyReset.nextSlot) ∨
    (s.port.rst = false ∧ (s.port.cmd_valid = false ∨ s.cmd_ready = false) ∧ step s = .next s.nextSlot) ∨
    (s.port.rst = false ∧ s.port.cmd_valid = true ∧ s.cmd_ready = true ∧
      step s = mapNext State.nextSlot (runCommand s)) := by
  cases h1 : s.port.rst
  · cases h2 : s.port.cmd_valid
    · exact .inr (.inl ⟨rfl, .inl rfl, by simp [step, slot, State.accepts, h1, h2]⟩)
    · cases h3 : s.cmd_ready
      · exact .inr (.inl ⟨rfl, .inr rfl, by simp [step, slot, State.accepts, h1, h3]⟩)
      · exact .inr (.inr ⟨rfl, rfl, rfl, step_of_accepted h1 h2 h3⟩)
  · exact .inl ⟨rfl, by simp [step, slot, h1]⟩

/-- A run goes on from the next state of its first step. -/
theorem run_succ_of_next {s u : State} (h : step s = .next u) (n : Nat) :
    Sys2Proof.core.run (n + 1) s = Sys2Proof.core.run n u := by
  have h' : Sys2Proof.core.step s = .next u := h
  have e := Host.Core.run.eq_def Sys2Proof.core (n + 1) s
  simp only [h'] at e
  exact e

/-! ### Violations -/

theorem Cause.all {P : Cause → Prop} (h1 : P .illegalEncoding) (h2 : P .sliceBounds) (h3 : P .portWidth)
    (h4 : P .sliceIndex) (h5 : P .bitIndex) (h6 : P .maskWidth) (k : Cause) : P k := by
  cases k <;> assumption

theorem Cause.code_injective {k k' : Cause} (h : k.code = k'.code) : k = k' := by
  revert h; cases k <;> cases k' <;> decide

/-- A violation with a next state is one of a checked block, and changes the record alone. -/
theorem raise_eq_next {k : Cause} {s t : State} (h : raise k s = .next t) :
    s.cfg.CHECKED = true ∧ t = { s with FAULT := true, CAUSE := k.code, FCMD := s.port.cmd } := by
  rw [raise_eq] at h
  split at h
  · cases h; exact ⟨by assumption, rfl⟩
  · cases h

theorem Reports.unique {c : Config} {w : BitVec c.CW} {k k' : Cause} (h : Reports c w k) (h' : Reports c w k') :
    k = k' := Cause.code_injective (BitVec.le_antisymm (h.2 _ h'.1) (h'.2 _ h.1))

/-- A legal word breaks what its command breaks. -/
theorem WordBreaks.of_ok {c : Config} {w : BitVec c.CW} {i : Instr} {k : Cause} (hd : decode c w = .ok i)
    (h : WordBreaks c w k) : Breaks c i k := by
  cases k
  case illegalEncoding => obtain ⟨e, he⟩ := h; rw [hd] at he; cases he
  all_goals
    obtain ⟨j, hj, hb⟩ := h
    rw [hd] at hj
    cases hj
    exact hb

/-- A legal word reports the cause of the lowest code whose precondition its command breaks. -/
theorem Reports.of_ok {c : Config} {w : BitVec c.CW} {i : Instr} {k : Cause} (hd : decode c w = .ok i)
    (hb : Breaks c i k) (hmin : ∀ k', Breaks c i k' → k.code ≤ k'.code) : Reports c w k := by
  refine ⟨?_, fun k' h => hmin k' (h.of_ok hd)⟩
  cases k <;> first | exact ⟨i, hd, hb⟩ | exact hb.elim

/-- An illegal word reports ILLEGAL_ENCODING. -/
theorem Reports.of_error {c : Config} {w : BitVec c.CW} {e : DecodeError} (hd : decode c w = .error e) :
    Reports c w .illegalEncoding :=
  ⟨⟨e, hd⟩, fun k' _ => by cases k' <;> decide⟩

/-- A slice operand denotes one slice. -/
theorem Denotes.unique {N : Nat} {sl : SliceOperand} {lo width lo' width' : Nat} (h : Denotes N sl lo width)
    (h' : Denotes N sl lo' width') : lo = lo' ∧ width = width' := by
  cases sl <;> simp only [Denotes, LegalSlice] at h h' <;> omega

/-! ### Commands -/

/-- A command raises the violation of the lowest code whose precondition it breaks, or breaks none and writes what
it may write. -/
theorem exec_cases (i : Instr) (s : State) :
    (∃ k, Breaks s.cfg i k ∧ (∀ k', Breaks s.cfg i k' → k.code ≤ k'.code) ∧ exec i s = raise k s) ∨
    ((∀ k, ¬ Breaks s.cfg i k) ∧ ∃ (V' : BitVec s.cfg.N) (R' : BitVec s.cfg.DW) (F' : Bool),
      exec i s = .next { s with V := V', R := R', F := F' } ∧
      (writesV i = false → V' = s.V) ∧ (writesR i = false → R' = s.R) ∧ (writesF i = false → F' = s.F)) := by
  cases i
  case mask K w =>
    by_cases h1 : K ≤ s.cfg.DW
    · by_cases h2 : w ≤ K
      · right
        refine ⟨Cause.all ?_ ?_ ?_ ?_ ?_ ?_, s.V, _, s.F,
          by simp only [exec, execMask]; rw [needPort_of h1, require_of (decide_eq_true h2)]; rfl,
          fun _ => rfl, fun h => by simp [writesR] at h, fun _ => rfl⟩ <;>
          simp [Breaks, sliceOperands, portWidths, bitIndices, sliceIndices, maskWidths, h1, h2]
      · left
        refine ⟨.maskWidth, by simp [Breaks, maskWidths]; omega, Cause.all ?_ ?_ ?_ ?_ ?_ ?_,
          by simp only [exec, execMask]; rw [needPort_of h1, require_of_not (decide_eq_false h2)]⟩ <;>
          simp [Breaks, sliceOperands, portWidths, bitIndices, sliceIndices, maskWidths, h1]
    · left
      refine ⟨.portWidth, by simp [Breaks, portWidths]; omega, Cause.all ?_ ?_ ?_ ?_ ?_ ?_,
        by simp only [exec, execMask]; rw [needPort_of_not (by omega)]⟩ <;>
          simp [Breaks, sliceOperands, portWidths, bitIndices, sliceIndices, maskWidths, Cause.code]
  case conv Ws Wd =>
    by_cases h1 : Ws ≤ s.cfg.DW
    · by_cases h2 : Wd ≤ s.cfg.DW
      · right
        refine ⟨Cause.all ?_ ?_ ?_ ?_ ?_ ?_, s.V, _, s.F,
          by simp only [exec, execConv]; rw [needPort_of h1, needPort_of h2]; rfl,
          fun _ => rfl, fun h => by simp [writesR] at h, fun _ => rfl⟩ <;>
          simp [Breaks, sliceOperands, portWidths, bitIndices, sliceIndices, maskWidths, h1, h2]
      · left
        refine ⟨.portWidth, by simp [Breaks, portWidths]; omega, Cause.all ?_ ?_ ?_ ?_ ?_ ?_,
          by simp only [exec, execConv]; rw [needPort_of h1, needPort_of_not (by omega)]⟩ <;>
          simp [Breaks, sliceOperands, portWidths, bitIndices, sliceIndices, maskWidths, Cause.code]
    · left
      refine ⟨.portWidth, by simp [Breaks, portWidths]; omega, Cause.all ?_ ?_ ?_ ?_ ?_ ?_,
        by simp only [exec, execConv]; rw [needPort_of_not (by omega)]⟩ <;>
          simp [Breaks, sliceOperands, portWidths, bitIndices, sliceIndices, maskWidths, Cause.code]
  case load W =>
    by_cases h1 : W ≤ s.cfg.DW
    · right
      refine ⟨Cause.all ?_ ?_ ?_ ?_ ?_ ?_, _, s.R, s.F,
        by simp only [exec, execLoad]; rw [needPort_of h1]; rfl,
        fun h => by simp [writesV] at h, fun _ => rfl, fun _ => rfl⟩ <;>
          simp [Breaks, sliceOperands, portWidths, bitIndices, sliceIndices, maskWidths, h1]
    · left
      refine ⟨.portWidth, by simp [Breaks, portWidths]; omega, Cause.all ?_ ?_ ?_ ?_ ?_ ?_,
        by simp only [exec, execLoad]; rw [needPort_of_not (by omega)]⟩ <;>
          simp [Breaks, sliceOperands, portWidths, bitIndices, sliceIndices, maskWidths, Cause.code]
  case readv W =>
    by_cases h1 : W ≤ s.cfg.DW
    · right
      refine ⟨Cause.all ?_ ?_ ?_ ?_ ?_ ?_, s.V, _, s.F,
        by simp only [exec, execReadv]; rw [needPort_of h1]; rfl,
        fun _ => rfl, fun h => by simp [writesR] at h, fun _ => rfl⟩ <;>
          simp [Breaks, sliceOperands, portWidths, bitIndices, sliceIndices, maskWidths, h1]
    · left
      refine ⟨.portWidth, by simp [Breaks, portWidths]; omega, Cause.all ?_ ?_ ?_ ?_ ?_ ?_,
        by simp only [exec, execReadv]; rw [needPort_of_not (by omega)]⟩ <;>
          simp [Breaks, sliceOperands, portWidths, bitIndices, sliceIndices, maskWidths, Cause.code]
  case test k =>
    by_cases h1 : k < s.cfg.N
    · right
      refine ⟨Cause.all ?_ ?_ ?_ ?_ ?_ ?_, s.V, s.R, _,
        by simp only [exec, execTest]; rw [needBit_of h1]; rfl,
        fun _ => rfl, fun _ => rfl, fun h => by simp [writesF] at h⟩ <;>
          simp [Breaks, sliceOperands, portWidths, bitIndices, sliceIndices, maskWidths, h1]
    · left
      refine ⟨.bitIndex, by simp [Breaks, bitIndices]; omega, Cause.all ?_ ?_ ?_ ?_ ?_ ?_,
        by simp only [exec, execTest]; rw [needBit_of_not (by omega)]⟩ <;>
          simp [Breaks, sliceOperands, portWidths, bitIndices, sliceIndices, maskWidths, Cause.code]
  case set k b =>
    by_cases h1 : k < s.cfg.N
    · right
      refine ⟨Cause.all ?_ ?_ ?_ ?_ ?_ ?_, _, s.R, s.F,
        by simp only [exec, execSet]; rw [needBit_of h1]; rfl,
        fun h => by simp [writesV] at h, fun _ => rfl, fun _ => rfl⟩ <;>
          simp [Breaks, sliceOperands, portWidths, bitIndices, sliceIndices, maskWidths, h1]
    · left
      refine ⟨.bitIndex, by simp [Breaks, bitIndices]; omega, Cause.all ?_ ?_ ?_ ?_ ?_ ?_,
        by simp only [exec, execSet]; rw [needBit_of_not (by omega)]⟩ <;>
          simp [Breaks, sliceOperands, portWidths, bitIndices, sliceIndices, maskWidths, Cause.code]
  case reset k =>
    by_cases h1 : k < s.cfg.N
    · right
      refine ⟨Cause.all ?_ ?_ ?_ ?_ ?_ ?_, _, s.R, s.F,
        by simp only [exec, execReset]; rw [needBit_of h1]; rfl,
        fun h => by simp [writesV] at h, fun _ => rfl, fun _ => rfl⟩ <;>
          simp [Breaks, sliceOperands, portWidths, bitIndices, sliceIndices, maskWidths, h1]
    · left
      refine ⟨.bitIndex, by simp [Breaks, bitIndices]; omega, Cause.all ?_ ?_ ?_ ?_ ?_ ?_,
        by simp only [exec, execReset]; rw [needBit_of_not (by omega)]⟩ <;>
          simp [Breaks, sliceOperands, portWidths, bitIndices, sliceIndices, maskWidths, Cause.code]
  case flip k =>
    by_cases h1 : k < s.cfg.N
    · right
      refine ⟨Cause.all ?_ ?_ ?_ ?_ ?_ ?_, _, s.R, s.F,
        by simp only [exec, execFlip]; rw [needBit_of h1]; rfl,
        fun h => by simp [writesV] at h, fun _ => rfl, fun _ => rfl⟩ <;>
          simp [Breaks, sliceOperands, portWidths, bitIndices, sliceIndices, maskWidths, h1]
    · left
      refine ⟨.bitIndex, by simp [Breaks, bitIndices]; omega, Cause.all ?_ ?_ ?_ ?_ ?_ ?_,
        by simp only [exec, execFlip]; rw [needBit_of_not (by omega)]⟩ <;>
          simp [Breaks, sliceOperands, portWidths, bitIndices, sliceIndices, maskWidths, Cause.code]
  case clr =>
    right
    refine ⟨Cause.all ?_ ?_ ?_ ?_ ?_ ?_, _, s.R, s.F, rfl, fun h => by simp [writesV] at h, fun _ => rfl, fun _ => rfl⟩ <;>
          simp [Breaks, sliceOperands, portWidths, bitIndices, sliceIndices, maskWidths]
  case count =>
    right
    refine ⟨Cause.all ?_ ?_ ?_ ?_ ?_ ?_, s.V, _, s.F, rfl, fun _ => rfl, fun h => by simp [writesR] at h, fun _ => rfl⟩ <;>
          simp [Breaks, sliceOperands, portWidths, bitIndices, sliceIndices, maskWidths]
  case sget sl k =>
    by_cases h0 : LegalSlice s.cfg.N sl
    · obtain ⟨lo, width, hd⟩ := h0.denotes
      by_cases h1 : k < width
      · right
        refine ⟨Cause.all ?_ ?_ ?_ ?_ ?_ ?_, s.V, s.R, _,
          by simp only [exec, execSget]; rw [withSliceBit_of hd h1]; rfl,
          fun _ => rfl, fun _ => rfl, fun h => by simp [writesF] at h⟩
        all_goals simp [Breaks, sliceOperands, portWidths, bitIndices, sliceIndices, maskWidths, h0]
        intro a b hab; have := hd.unique hab; omega
      · left
        refine ⟨.sliceIndex, by simp [Breaks, sliceIndices]; exact ⟨lo, width, hd, by omega⟩,
          Cause.all ?_ ?_ ?_ ?_ ?_ ?_,
          by simp only [exec, execSget]; rw [withSliceBit_of_index hd (by omega)]⟩ <;>
          simp [Breaks, sliceOperands, portWidths, bitIndices, sliceIndices, maskWidths, Cause.code, h0]
    · left
      refine ⟨.sliceBounds, by simp [Breaks, sliceOperands, h0], Cause.all ?_ ?_ ?_ ?_ ?_ ?_,
        by simp only [exec, execSget]; rw [withSliceBit_of_not h0]⟩ <;>
          simp [Breaks, sliceOperands, portWidths, bitIndices, sliceIndices, maskWidths, Cause.code]
  case sset sl k b =>
    by_cases h0 : LegalSlice s.cfg.N sl
    · obtain ⟨lo, width, hd⟩ := h0.denotes
      by_cases h1 : k < width
      · right
        refine ⟨Cause.all ?_ ?_ ?_ ?_ ?_ ?_, _, s.R, s.F,
          by simp only [exec, execSset]; rw [withSliceBit_of hd h1]; rfl,
          fun h => by simp [writesV] at h, fun _ => rfl, fun _ => rfl⟩
        all_goals simp [Breaks, sliceOperands, portWidths, bitIndices, sliceIndices, maskWidths, h0]
        intro a b hab; have := hd.unique hab; omega
      · left
        refine ⟨.sliceIndex, by simp [Breaks, sliceIndices]; exact ⟨lo, width, hd, by omega⟩,
          Cause.all ?_ ?_ ?_ ?_ ?_ ?_,
          by simp only [exec, execSset]; rw [withSliceBit_of_index hd (by omega)]⟩ <;>
          simp [Breaks, sliceOperands, portWidths, bitIndices, sliceIndices, maskWidths, Cause.code, h0]
    · left
      refine ⟨.sliceBounds, by simp [Breaks, sliceOperands, h0], Cause.all ?_ ?_ ?_ ?_ ?_ ?_,
        by simp only [exec, execSset]; rw [withSliceBit_of_not h0]⟩ <;>
          simp [Breaks, sliceOperands, portWidths, bitIndices, sliceIndices, maskWidths, Cause.code]
  case sflip sl k =>
    by_cases h0 : LegalSlice s.cfg.N sl
    · obtain ⟨lo, width, hd⟩ := h0.denotes
      by_cases h1 : k < width
      · right
        refine ⟨Cause.all ?_ ?_ ?_ ?_ ?_ ?_, _, s.R, s.F,
          by simp only [exec, execSflip]; rw [withSliceBit_of hd h1]; rfl,
          fun h => by simp [writesV] at h, fun _ => rfl, fun _ => rfl⟩
        all_goals simp [Breaks, sliceOperands, portWidths, bitIndices, sliceIndices, maskWidths, h0]
        intro a b hab; have := hd.unique hab; omega
      · left
        refine ⟨.sliceIndex, by simp [Breaks, sliceIndices]; exact ⟨lo, width, hd, by omega⟩,
          Cause.all ?_ ?_ ?_ ?_ ?_ ?_,
          by simp only [exec, execSflip]; rw [withSliceBit_of_index hd (by omega)]⟩ <;>
          simp [Breaks, sliceOperands, portWidths, bitIndices, sliceIndices, maskWidths, Cause.code, h0]
    · left
      refine ⟨.sliceBounds, by simp [Breaks, sliceOperands, h0], Cause.all ?_ ?_ ?_ ?_ ?_ ?_,
        by simp only [exec, execSflip]; rw [withSliceBit_of_not h0]⟩ <;>
          simp [Breaks, sliceOperands, portWidths, bitIndices, sliceIndices, maskWidths, Cause.code]
  case srd sl W =>
    by_cases h0 : LegalSlice s.cfg.N sl
    · obtain ⟨lo, width, hd⟩ := h0.denotes
      by_cases h1 : W ≤ s.cfg.DW
      · right
        refine ⟨Cause.all ?_ ?_ ?_ ?_ ?_ ?_, s.V, _, s.F,
          by simp only [exec, execSrd]; rw [withSlice_of hd, needPort_of h1]; rfl,
          fun _ => rfl, fun h => by simp [writesR] at h, fun _ => rfl⟩ <;>
          simp [Breaks, sliceOperands, portWidths, bitIndices, sliceIndices, maskWidths, h0, h1]
      · left
        refine ⟨.portWidth, by simp [Breaks, portWidths]; omega, Cause.all ?_ ?_ ?_ ?_ ?_ ?_,
          by simp only [exec, execSrd]; rw [withSlice_of hd, needPort_of_not (by omega)]⟩ <;>
          simp [Breaks, sliceOperands, portWidths, bitIndices, sliceIndices, maskWidths, Cause.code, h0]
    · left
      refine ⟨.sliceBounds, by simp [Breaks, sliceOperands, h0], Cause.all ?_ ?_ ?_ ?_ ?_ ?_,
        by simp only [exec, execSrd]; rw [withSlice_of_not h0]⟩ <;>
          simp [Breaks, sliceOperands, portWidths, bitIndices, sliceIndices, maskWidths, Cause.code]
  case swr sl W =>
    by_cases h0 : LegalSlice s.cfg.N sl
    · obtain ⟨lo, width, hd⟩ := h0.denotes
      by_cases h1 : W ≤ s.cfg.DW
      · right
        refine ⟨Cause.all ?_ ?_ ?_ ?_ ?_ ?_, _, s.R, s.F,
          by simp only [exec, execSwr]; rw [withSlice_of hd, needPort_of h1]; rfl,
          fun h => by simp [writesV] at h, fun _ => rfl, fun _ => rfl⟩ <;>
          simp [Breaks, sliceOperands, portWidths, bitIndices, sliceIndices, maskWidths, h0, h1]
      · left
        refine ⟨.portWidth, by simp [Breaks, portWidths]; omega, Cause.all ?_ ?_ ?_ ?_ ?_ ?_,
          by simp only [exec, execSwr]; rw [withSlice_of hd, needPort_of_not (by omega)]⟩ <;>
          simp [Breaks, sliceOperands, portWidths, bitIndices, sliceIndices, maskWidths, Cause.code, h0]
    · left
      refine ⟨.sliceBounds, by simp [Breaks, sliceOperands, h0], Cause.all ?_ ?_ ?_ ?_ ?_ ?_,
        by simp only [exec, execSwr]; rw [withSlice_of_not h0]⟩ <;>
          simp [Breaks, sliceOperands, portWidths, bitIndices, sliceIndices, maskWidths, Cause.code]
  case swri sl =>
    by_cases h0 : LegalSlice s.cfg.N sl
    · obtain ⟨lo, width, hd⟩ := h0.denotes
      right
      refine ⟨Cause.all ?_ ?_ ?_ ?_ ?_ ?_, _, s.R, s.F,
        by simp only [exec, execSwri]; rw [withSlice_of hd]; rfl,
        fun h => by simp [writesV] at h, fun _ => rfl, fun _ => rfl⟩ <;>
          simp [Breaks, sliceOperands, portWidths, bitIndices, sliceIndices, maskWidths, h0]
    · left
      refine ⟨.sliceBounds, by simp [Breaks, sliceOperands, h0], Cause.all ?_ ?_ ?_ ?_ ?_ ?_,
        by simp only [exec, execSwri]; rw [withSlice_of_not h0]⟩ <;>
          simp [Breaks, sliceOperands, portWidths, bitIndices, sliceIndices, maskWidths, Cause.code]
  case swrs d r =>
    by_cases h0 : LegalSlice s.cfg.N d
    · obtain ⟨lo, width, hd⟩ := h0.denotes
      by_cases h1 : LegalSlice s.cfg.N r
      · obtain ⟨lo2, width2, hr⟩ := h1.denotes
        right
        refine ⟨Cause.all ?_ ?_ ?_ ?_ ?_ ?_, _, s.R, s.F,
          by simp only [exec, execSwrs]; rw [withSlice_of hd, withSlice_of hr]; rfl,
          fun h => by simp [writesV] at h, fun _ => rfl, fun _ => rfl⟩ <;>
          simp [Breaks, sliceOperands, portWidths, bitIndices, sliceIndices, maskWidths, h0, h1]
      · left
        refine ⟨.sliceBounds, by simp [Breaks, sliceOperands, h1], Cause.all ?_ ?_ ?_ ?_ ?_ ?_,
          by simp only [exec, execSwrs]; rw [withSlice_of hd, withSlice_of_not h1]⟩ <;>
          simp [Breaks, sliceOperands, portWidths, bitIndices, sliceIndices, maskWidths, Cause.code]
    · left
      refine ⟨.sliceBounds, by simp [Breaks, sliceOperands, h0], Cause.all ?_ ?_ ?_ ?_ ?_ ?_,
        by simp only [exec, execSwrs]; rw [withSlice_of_not h0]⟩ <;>
          simp [Breaks, sliceOperands, portWidths, bitIndices, sliceIndices, maskWidths, Cause.code]
  all_goals
    right
    refine ⟨Cause.all ?_ ?_ ?_ ?_ ?_ ?_, s.V, s.R, _, rfl, fun _ => rfl, fun _ => rfl, fun h => by simp [writesF] at h⟩ <;>
          simp [Breaks, sliceOperands, portWidths, bitIndices, sliceIndices, maskWidths]

end Sys2Proof.Machine
end

