-- ==== Sys2Proof/Laws/Values.lean ====
section
/-! SUPPORT. The count of one bits, and the loops of the two informative algorithms (40_mask.md R101, 41_convert.md
R111), bit by bit. -/

namespace Sys2Proof.Machine

theorem memRead_toNat {N : Nat} (V : BitVec N) (lo n : Nat) : (memRead V lo n).toNat = V.toNat / 2 ^ lo % 2 ^ n := by
  simp [memRead, BitVec.extractLsb'_toNat, Nat.shiftRight_eq_div_pow]

theorem popcount_le {N : Nat} (V : BitVec N) : popcount V ≤ N := by
  simpa [popcount] using List.countP_le_length (p := V.getLsbD) (l := List.range N)

theorem popcount_card {N : Nat} (V : BitVec N) :
    popcount V = ((Finset.univ : Finset (Fin N)).filter fun k => V.getLsbD k.val = true).card := by
  unfold popcount
  have h1 : ((Finset.univ : Finset (Fin N)).filter fun k => V.getLsbD k.val = true).card
      = ((Finset.range N).filter fun k => V.getLsbD k = true).card := by
    apply Finset.card_bij (fun k _ => k.val)
    · intro a ha; rw [Finset.mem_filter] at ha ⊢; exact ⟨Finset.mem_range.mpr a.isLt, ha.2⟩
    · intro a _ b _ h; exact Fin.ext h
    · intro b hb
      rw [Finset.mem_filter] at hb
      exact ⟨⟨b, Finset.mem_range.mp hb.1⟩, Finset.mem_filter.mpr ⟨Finset.mem_univ _, hb.2⟩, rfl⟩
  rw [h1, List.countP_eq_length_filter, Finset.card_def]
  simp only [Finset.filter, Finset.range, Multiset.range, Multiset.filter_coe, Multiset.coe_card]
  congr 1
  apply List.filter_congr
  intro x _; simp

/-- The doubling loop started with the low `n` ones of `w` ends with the low `w` ones, when the fuel lasts. -/
theorem maskDoubling_getLsbD {K : Nat} (w : Nat) (hw : w ≤ K) : ∀ (fuel n : Nat) (r : BitVec K),
    0 < n → w ≤ fuel + n → (∀ j, r.getLsbD j = decide (j < min n w)) →
    ∀ j, (maskDoubling fuel n w r).getLsbD j = decide (j < w) := by
  intro fuel
  induction fuel with
  | zero => intro n r _ h hr j; rw [maskDoubling, hr, show min n w = w by omega]
  | succ fuel ih =>
    intro n r hn h hr j
    rw [maskDoubling]
    split
    · rename_i hlt
      refine ih (2 * n) _ (by omega) (by omega) ?_ j
      intro j
      rw [BitVec.getLsbD_or, BitVec.getLsbD_shiftLeft, hr, hr]
      by_cases h1 : j < n
      · simp [show j < min n w by omega, show j < min (2 * n) w by omega]
      · by_cases h2 : j < min (2 * n) w
        · have a1 : j < K := by omega
          have a2 : ¬ j < min n (w - n) := by omega
          have a3 : j - min n (w - n) < min n w := by omega
          simp only [h2, a1, a2, a3]; simp
        · have a3 : ¬ j - min n (w - n) < min n w := by omega
          have a4 : ¬ j < min n w := by omega
          simp only [h2, a3, a4]; simp
    · rw [hr, show min n w = w by omega]

/-- The first `n` chunks carry the low `64 * n` bits. -/
theorem chunkedCopy_getLsbD {M : Nat} (D : Nat) (src : BitVec M) :
    ∀ n j, (chunkedCopy D src n).getLsbD j = (decide (j < min (64 * n) D) && src.getLsbD j) := by
  intro n
  induction n with
  | zero => intro j; simp [chunkedCopy]
  | succ n ih =>
    intro j
    rw [chunkedCopy, BitVec.getLsbD_or, ih, BitVec.getLsbD_shiftLeft, convert_getLsbD, chunk, convert_getLsbD,
      BitVec.getLsbD_ushiftRight]
    by_cases h1 : j < D
    · by_cases h2 : j < 64 * n
      · simp [show j < min (64 * n) D by omega, show j < min (64 * (n + 1)) D by omega, h2]
      · by_cases h3 : j < 64 * (n + 1)
        · simp [h1, h2, show ¬ j < min (64 * n) D by omega, show j < min (64 * (n + 1)) D by omega,
            show j - 64 * n < D by omega, show j - 64 * n < 64 by omega, show 64 * n + (j - 64 * n) = j by omega]
        · simp [show ¬ j < min (64 * n) D by omega, show ¬ j < min (64 * (n + 1)) D by omega,
            show ¬ j - 64 * n < 64 by omega]
    · simp [show ¬ j < min (64 * n) D by omega, show ¬ j < min (64 * (n + 1)) D by omega, h1]

end Sys2Proof.Machine
end

