-- ==== Sys2Proof/Tests/Slice0.lean ====
section
/-! SUPPORT. Tests of the decoder, the meanings and the assembly reader, with expected results from the spec's own
tables (30_encoding.md R82, R83; 95_test_vectors.md), and for each statement with hypotheses a witness that meets
them. -/

set_option maxRecDepth 8000

namespace Sys2Proof.Tests

open Sys2Proof.Machine

/-! ### The configurations of 95_test_vectors.md -/

def cfgA : Config := Config.default

def cfgB : Config where
  N := 64
  DW := 128
  FW := 8
  CHECKED := true
  INIT := 0#64
  N_pos := by decide
  DW_ge := by decide
  FW_ge := by decide

def cfgC : Config where
  N := 199
  DW := 199
  FW := 8
  CHECKED := true
  INIT := 0#199
  N_pos := by decide
  DW_ge := by decide
  FW_ge := by decide

def cfgD : Config where
  N := 16
  DW := 64
  FW := 8
  CHECKED := true
  INIT := 0#16
  N_pos := by decide
  DW_ge := by decide
  FW_ge := by decide

def cfgE : Config where
  N := 64
  DW := 64
  FW := 8
  CHECKED := true
  INIT := 0#64
  N_pos := by decide
  DW_ge := by decide
  FW_ge := by decide

/-- D with INIT = 0xA5A5 (RS3 of 95_test_vectors.md). -/
def cfgInit : Config := { cfgD with INIT := 0xA5A5#16 }

/-- D with `CHECKED = 0`. -/
def cfgU : Config := { cfgD with CHECKED := false }

/-- The state after reset but for V, the host presenting one command. -/
def presenting (c : Config) (V cmd din : Nat) : State :=
  let s := State.resetOf c [{ cmd_valid := true, cmd := BitVec.ofNat c.CW cmd, din := BitVec.ofNat c.DW din }]
  { s with V := BitVec.ofNat c.N V }

/-- The slot of the command gives V, R, F and STATUS; FCMD is the word just when STATUS is not 0. -/
def slotGives (c : Config) (cmd din V V' R' F' STATUS' : Nat) : Bool :=
  match step (presenting c V cmd din) with
  | .next t => t.V.toNat == V' && t.R.toNat == R' && t.F.toNat == F' && t.status.toNat == STATUS' &&
      t.fcmd.toNat == (if STATUS' = 0 then 0 else cmd) && t.host == []
  | _ => false

/-- A row of 95_test_vectors.md: the assembly is the word, and the slot gives the results. -/
def vector (c : Config) (line : String) (cmd din V V' R' F' STATUS' : Nat) : Bool :=
  ((assemble line.toList).map fun p => (encode c p.1).toNat) == some cmd && slotGives c cmd din V V' R' F' STATUS'

/-! ### Well-formedness: one ill-formed term for each check (R71: with FW = 8 a field ends at 255) -/

theorem test_wf_refuses :
    [Instr.mask 256 0, .mask 0 256, .conv 256 0, .conv 0 256, .load 256, .readv 256, .test 256, .set 256 true,
     .reset 256, .flip 256].all (fun i => !i.wf cfgA) = true := by decide

theorem test_wf_refuses_slice :
    [Instr.sget (.hiLo 256 0) 0, .sget (.hiLo 0 256) 0, .sget (.loWidth 256 0) 0, .sget (.loWidth 0 256) 0,
     .sget (.hiWidth 256 0) 0, .sget (.hiWidth 0 256) 0, .sget (.hiLo 0 0) 256, .sset (.hiLo 256 0) 0 true,
     .sset (.hiLo 0 0) 256 true, .sflip (.hiLo 256 0) 0, .sflip (.hiLo 0 0) 256, .srd (.hiLo 256 0) 0,
     .srd (.hiLo 0 0) 256, .swr (.hiLo 256 0) 0, .swr (.hiLo 0 0) 256, .swri (.hiLo 256 0),
     .swrs (.hiLo 256 0) (.hiLo 0 0), .swrs (.hiLo 0 0) (.hiLo 256 0)].all (fun i => !i.wf cfgA) = true := by decide

theorem test_wf_accepts :
    [Instr.mask 255 255, .clr, .any, .all, .none, .count, .eq, .sset (.hiWidth 255 255) 255 true,
     .swrs (.hiLo 255 255) (.loWidth 255 255)].all (fun i => i.wf cfgA) = true := by decide

/-! ### Decoding: words written out from the fields of R70, R72 and R73 -/

/-- R83: the worked encodings, and their assembly. -/
theorem test_worked_encodings :
    [("MASK 128, 70", 0x000046800001), ("CONV 64, 32", 0x000020400002), ("CLR", 0x000000000010),
     ("LOAD 64", 0x000000400011), ("SET 5, 1", 0x000000051014), ("SET 5, 0", 0x000000050014),
     ("SRD [198-:49], 64", 0x004031C60223), ("SWRI [63:0]", 0x0000003F0025),
     ("SWRS [40:0], [80:40]", 0x285000280026), ("SSET [8+:4], 2, 1", 0x000204081121)].all
      (fun p => decodeTableWord 48 p.2 == (assemble p.1.toList).map (·.1) &&
        (assemble p.1.toList).isSome) = true := by decide

/-- `D C B A RSV VB MS MD OP`, bit by bit, for a command of each format and family. -/
theorem test_decode_bits :
    decode cfgA 0b00000000_00000000_00000011_00000101_000_0_00_00_00000001#48 = .ok (.mask 5 3) ∧
    decode cfgA 0b00000000_00000000_00000011_00000101_000_0_00_00_00000010#48 = .ok (.conv 5 3) ∧
    decode cfgA 0b00000000_00000000_00000000_00000101_000_0_00_00_00010011#48 = .ok (.test 5) ∧
    decode cfgA 0b00000000_00000000_00000000_00000101_000_1_00_00_00010100#48 = .ok (.set 5 true) ∧
    decode cfgA 0b00000000_00000111_00000011_00000101_000_1_00_01_00100001#48 = .ok (.sset (.loWidth 5 3) 7 true) ∧
    decode cfgA 0b00000000_00000111_00000011_00000101_000_0_00_10_00100011#48 = .ok (.srd (.hiWidth 5 3) 7) ∧
    decode cfgA 0b00001001_00000111_00000011_00000101_000_0_10_01_00100110#48
      = .ok (.swrs (.loWidth 5 3) (.hiWidth 7 9)) := by decide

/-- The headers of opcode_table.json with every operand field 0, in the table's order (R73). -/
theorem test_table_headers :
    [0x01, 0x02, 0x10, 0x11, 0x12, 0x13, 0x14, 0x15, 0x16, 0x17, 0x18, 0x19, 0x1A, 0x1B, 0x20, 0x21, 0x22, 0x23,
     0x24, 0x25, 0x26].map (fun w => (decodeTableWord 16 w).map (·.mnemonic)) =
    ["MASK", "CONV", "CLR", "LOAD", "READV", "TEST", "SET", "RESET", "FLIP", "ANY", "ALL", "NONE", "COUNT", "EQ",
     "SGET", "SSET", "SFLIP", "SRD", "SWR", "SWRI", "SWRS"].map some := by decide

/-- With `FW = 9` the operand fields start at bits 16, 25, 34 and 43 (R70). -/
theorem test_wide_fields :
    decode { cfgA with FW := 9, FW_ge := by decide } (BitVec.ofNat 52 (0x0026 + 2 ^ 16 * 256 + 2 ^ 25 * 257 +
      2 ^ 34 * 258 + 2 ^ 43 * 259)) = .ok (.swrs (.hiLo 256 257) (.hiLo 258 259)) := by decide

/-- R82: the pseudo-instructions, and R81: hexadecimal numbers and `din=x`. -/
theorem test_pseudo_assembly :
    assemble "SET 5".toList = some (.set 5 true, 0) ∧
    assemble "SSET [7:4], 3".toList = some (.sset (.hiLo 7 4) 3 true, 0) ∧
    assemble "LDSC din=0xDEADBEEF".toList = some (.load 64, 0xDEADBEEF) ∧
    assemble "RDSC".toList = some (.readv 64, 0) ∧
    assemble "SZERO [8+:4]".toList = some (.swr (.loWidth 8 4) 0, 0) ∧
    assemble "COPYV 0x20, din=7".toList = some (.conv 32 32, 7) ∧
    assemble "EQ din=0x5A".toList = some (.eq, 0x5A) ∧
    assemble "SWR [0xF-:2], 16, din=3".toList = some (.swr (.hiWidth 15 2) 16, 3) ∧
    assemble "NOP".toList = none ∧ assemble "SET 5, 2".toList = none := by decide

/-- R110: its two examples, with `_` between digits, from the line to R; and `_` elsewhere is no number. -/
theorem test_conv_example_lines :
    (["CONV 64, 32, din=0x1_2345_6789_ABCD", "CONV 32, 64, din=0xFFFF_FFFF_FFFF_FFFF"].map fun line =>
      (assembleSlot cfgA line.toList).bind fun p =>
        match step (State.resetOf cfgA [p]) with
        | .next t => some t.R.toNat
        | _ => none) = [some 0x6789ABCD, some 0xFFFFFFFF] ∧
    ["TEST _5", "TEST 5_", "TEST 5__6", "TEST 0x_5", "TEST 0x"].all (fun line => assemble line.toList == none) = true := by
  decide

/-- Log entry 15: the largest numbers of configuration A that make a slot, and the first that do not. -/
theorem test_number_bounds :
    assemble "TEST 256".toList = some (.test 256, 0) ∧
    (assembleSlot cfgA "TEST 255".toList).isSome = true ∧ assembleSlot cfgA "TEST 256".toList = none ∧
    (assembleSlot cfgA "EQ din=0xFFFFFFFFFFFFFFFFFFFFFFFFFFFFFFFF".toList).isSome = true ∧
    assembleSlot cfgA "EQ din=0x100000000000000000000000000000000".toList = none := by decide

/-! ### The vectors of 95_test_vectors.md -/

/-- 95_test_vectors.md M1 to M11, the rows of MASK. -/
theorem test_mask :
    (vector cfgA "MASK 0, 0" 0x000000000001 0 0 0 0 0 0 &&
     vector cfgA "MASK 8, 3" 0x000003080001 0 0 0 0x7 0 0 &&
     vector cfgA "MASK 128, 63" 0x00003F800001 0 0 0 0x7FFFFFFFFFFFFFFF 0 0 &&
     vector cfgA "MASK 128, 64" 0x000040800001 0 0 0 0xFFFFFFFFFFFFFFFF 0 0 &&
     vector cfgA "MASK 128, 65" 0x000041800001 0 0 0 0x1FFFFFFFFFFFFFFFF 0 0 &&
     vector cfgA "MASK 128, 127" 0x00007F800001 0 0 0 0x7FFFFFFFFFFFFFFFFFFFFFFFFFFFFFFF 0 0 &&
     vector cfgA "MASK 128, 128" 0x000080800001 0 0 0 0xFFFFFFFFFFFFFFFFFFFFFFFFFFFFFFFF 0 0 &&
     vector cfgA "MASK 64, 70" 0x000046400001 0 0 0 0 0 0x61 &&
     vector cfgA "MASK 129, 3" 0x000003810001 0 0 0 0 0 0x31 &&
     vector cfgA "MASK 129, 200" 0x0000C8810001 0 0 0 0 0 0x31 &&
     vector cfgA "MASK 16, 16" 0x000010100001 0 0x55 0x55 0xFFFF 0 0) = true := by decide

/-- 95_test_vectors.md V1 to V9, the rows of CONV. -/
theorem test_conv :
    (vector cfgA "CONV 64, 64" 0x000040400002 0x123456789ABCDEF 0 0 0x123456789ABCDEF 0 0 &&
     vector cfgA "CONV 64, 32" 0x000020400002 0x123456789ABCDEF 0 0 0x89ABCDEF 0 0 &&
     vector cfgA "CONV 32, 64" 0x000040200002 0xFFFFFFFFFFFFFFFF 0 0 0xFFFFFFFF 0 0 &&
     vector cfgA "CONV 0, 128" 0x000080000002 0xFFFF 0 0 0 0 0 &&
     vector cfgA "CONV 128, 0" 0x000000800002 0xFFFF 0 0 0 0 0 &&
     vector cfgA "CONV 128, 70" 0x000046800002 0xFFFFFFFFFFFFFFFFFFFFFFFFFFFFFFFF 0 0 0x3FFFFFFFFFFFFFFFFF 0 0 &&
     vector cfgA "CONV 100, 128"
            0x000080640002 0x80000008000000000000000000000001 0 0 0x8000000000000000000000001 0 0 &&
     vector cfgA "CONV 129, 8" 0x000008810002 0x1 0 0 0 0 0x31 &&
     vector cfgA "CONV 8, 129" 0x000081080002 0x1 0 0 0 0 0x31) = true := by decide

/-- 95_test_vectors.md B1 to B1, the rows of CLR. -/
theorem test_clr :
    (vector cfgD "CLR" 0x000000000010 0 0xFFFF 0 0 0 0) = true := by decide

/-- 95_test_vectors.md B2 to B4, the rows of LOAD. -/
theorem test_load :
    (vector cfgA "LOAD 64" 0x000000400011 0xDEADBEEF 0 0xDEADBEEF 0 0 0 &&
     vector cfgB "LOAD 128" 0x000000800011 0xAAAA0000000000001234 0 0x1234 0 0 0 &&
     vector cfgD "LOAD 0" 0x000000000011 0xFFFF 0xFFFF 0 0 0 0) = true := by decide

/-- 95_test_vectors.md B5 to B8, the rows of READV. -/
theorem test_readv :
    (vector cfgA "READV 64" 0x000000400012 0 0x10000000000000000000000005 0x10000000000000000000000005 0x5 0 0 &&
     vector cfgA "READV 128"
            0x000000800012 0 0x10000000000000000000000005 0x10000000000000000000000005 0x10000000000000000000000005 0 0 &&
     vector cfgA "READV 0" 0x000000000012 0 0x10000000000000000000000005 0x10000000000000000000000005 0 0 0 &&
     vector cfgA "READV 129" 0x000000810012 0 0 0 0 0 0x31) = true := by decide

/-- 95_test_vectors.md B9 to B12, the rows of TEST. -/
theorem test_test :
    (vector cfgD "TEST 2" 0x000000020013 0 0x4 0x4 0 1 0 &&
     vector cfgD "TEST 1" 0x000000010013 0 0x4 0x4 0 0 0 &&
     vector cfgD "TEST 15" 0x0000000F0013 0 0x8000 0x8000 0 1 0 &&
     vector cfgD "TEST 16" 0x000000100013 0 0x8000 0x8000 0 0 0x51) = true := by decide

/-- 95_test_vectors.md B13 to B16, the rows of SET. -/
theorem test_set :
    (vector cfgD "SET 15, 1" 0x0000000F1014 0 0 0x8000 0 0 0 &&
     vector cfgD "SET 3, 0" 0x000000030014 0 0xFFFF 0xFFF7 0 0 0 &&
     vector cfgD "SET 0, 1" 0x000000001014 0 0x1 0x1 0 0 0 &&
     vector cfgD "SET 16, 1" 0x000000101014 0 0 0 0 0 0x51) = true := by decide

/-- 95_test_vectors.md B17 to B19, the rows of RESET. -/
theorem test_reset :
    (vector cfgD "RESET 0" 0x000000000015 0 0xFFFF 0xFFFE 0 0 0 &&
     vector cfgD "RESET 7" 0x000000070015 0 0 0 0 0 0 &&
     vector cfgD "RESET 99" 0x000000630015 0 0 0 0 0 0x51) = true := by decide

/-- 95_test_vectors.md B20 to B22, the rows of FLIP. -/
theorem test_flip :
    (vector cfgD "FLIP 4" 0x000000040016 0 0xF 0x1F 0 0 0 &&
     vector cfgD "FLIP 4" 0x000000040016 0 0x1F 0xF 0 0 0 &&
     vector cfgD "FLIP 16" 0x000000100016 0 0 0 0 0 0x51) = true := by decide

/-- 95_test_vectors.md B23 to B24, the rows of ANY. -/
theorem test_any :
    (vector cfgD "ANY" 0x000000000017 0 0 0 0 0 0 &&
     vector cfgD "ANY" 0x000000000017 0 0x100 0x100 0 1 0) = true := by decide

/-- 95_test_vectors.md B25 to B26, the rows of ALL. -/
theorem test_all :
    (vector cfgD "ALL" 0x000000000018 0 0xFFFF 0xFFFF 0 1 0 &&
     vector cfgD "ALL" 0x000000000018 0 0x7FFF 0x7FFF 0 0 0) = true := by decide

/-- 95_test_vectors.md B27 to B28, the rows of NONE. -/
theorem test_none :
    (vector cfgD "NONE" 0x000000000019 0 0 0 0 1 0 &&
     vector cfgD "NONE" 0x000000000019 0 0x1 0x1 0 0 0) = true := by decide

/-- 95_test_vectors.md B29 to B32, the rows of COUNT. -/
theorem test_count :
    (vector cfgD "COUNT" 0x00000000001A 0 0 0 0 0 0 &&
     vector cfgD "COUNT" 0x00000000001A 0 0xFFFF 0xFFFF 0x10 0 0 &&
     vector cfgA "COUNT" 0x00000000001A 0 0x3FFFFFFFFFFFFFFFFF 0x3FFFFFFFFFFFFFFFFF 0x46 0 0 &&
     vector cfgA "COUNT"
            0x00000000001A 0 0x80000000000000000000000000000001 0x80000000000000000000000000000001 0x2 0 0) = true := by decide

/-- 95_test_vectors.md B33 to B35, the rows of EQ. -/
theorem test_eq :
    (vector cfgD "EQ" 0x00000000001B 0x5A5A 0x5A5A 0x5A5A 0 1 0 &&
     vector cfgD "EQ" 0x00000000001B 0x15A5A 0x5A5A 0x5A5A 0 1 0 &&
     vector cfgD "EQ" 0x00000000001B 0x5A5B 0x5A5A 0x5A5A 0 0 0) = true := by decide

/-- 95_test_vectors.md S2 to S6, the rows of SGET. -/
theorem test_sget :
    (vector cfgD "SGET [7:4], 3" 0x000304070020 0 0x80 0x80 0 1 0 &&
     vector cfgD "SGET [7:4], 4" 0x000404070020 0 0x80 0x80 0 0 0x41 &&
     vector cfgD "SGET [4:7], 0" 0x000007040020 0 0 0 0 0 0x21 &&
     vector cfgD "SGET [16:0], 0" 0x000000100020 0 0 0 0 0 0x21 &&
     vector cfgD "SGET [15:0], 15" 0x000F000F0020 0 0x8000 0x8000 0 1 0) = true := by decide

/-- 95_test_vectors.md S1 to S38, the rows of SSET. -/
theorem test_sset :
    (vector cfgD "SSET [7:4], 3, 1" 0x000304071021 0 0 0x80 0 0 0 &&
     vector cfgD "SSET [8+:4], 2, 1" 0x000204081121 0 0 0x400 0 0 0 &&
     vector cfgD "SSET [7:4], 3, 0" 0x000304070021 0 0xFF 0x7F 0 0 0 &&
     vector cfgD "SSET [15:0], 16, 1" 0x0010000F1021 0 0 0 0 0 0x41) = true := by decide

/-- 95_test_vectors.md S11 to S37, the rows of SFLIP. -/
theorem test_sflip :
    (vector cfgD "SFLIP [3-:2], 0" 0x000002030222 0 0 0x4 0 0 0 &&
     vector cfgD "SFLIP [7:4], 4" 0x000404070022 0 0 0 0 0 0x41) = true := by decide

/-- 95_test_vectors.md S8 to S39, the rows of SRD. -/
theorem test_srd :
    (vector cfgD "SRD [16+:0], 64" 0x004000100123 0 0 0 0 0 0 &&
     vector cfgD "SRD [17+:0], 64" 0x004000110123 0 0 0 0 0 0x21 &&
     vector cfgD "SRD [10+:7], 64" 0x0040070A0123 0 0 0 0 0 0x21 &&
     vector cfgD "SRD [3-:4], 16" 0x001004030223 0 0xFFFF 0xFFFF 0xF 0 0 &&
     vector cfgD "SRD [3-:5], 16" 0x001005030223 0 0xFFFF 0xFFFF 0 0 0x21 &&
     vector cfgD "SRD [15-:0], 16" 0x0010000F0223 0 0 0 0 0 0 &&
     vector cfgD "SRD [11:4], 8" 0x0008040B0023 0 0xABCD 0xABCD 0xBC 0 0 &&
     vector cfgD "SRD [11:4], 4" 0x0004040B0023 0 0xABCD 0xABCD 0xC 0 0 &&
     vector cfgD "SRD [11:4], 64" 0x0040040B0023 0 0xABCD 0xABCD 0xBC 0 0 &&
     vector cfgD "SRD [11:4], 65" 0x0041040B0023 0 0xABCD 0xABCD 0 0 0x31 &&
     vector cfgE "SRD [63:0], 64" 0x0040003F0023 0 0 0 0 0 0) = true := by decide

/-- 95_test_vectors.md S19 to S23, the rows of SWR. -/
theorem test_swr :
    (vector cfgD "SWR [11:4], 4" 0x0004040B0024 0xA5 0xFFFF 0xF05F 0 0 0 &&
     vector cfgD "SWR [11:4], 16" 0x0010040B0024 0x1234 0 0x340 0 0 0 &&
     vector cfgD "SWR [4+:0], 16" 0x001000040124 0 0xFFFF 0xFFFF 0 0 0 &&
     vector cfgD "SWR [15:8], 0" 0x0000080F0024 0 0xFFFF 0xFF 0 0 0 &&
     vector cfgD "SWR [15:8], 65" 0x0041080F0024 0 0xFFFF 0xFFFF 0 0 0x31) = true := by decide

/-- 95_test_vectors.md S24 to S27, the rows of SWRI. -/
theorem test_swri :
    (vector cfgA "SWRI [63:0]"
           0x0000003F0025 0xDEADBEEF 0xFFFFFFFFFFFFFFFFFFFFFFFFFFFFFFFF 0xFFFFFFFFFFFFFFFF00000000DEADBEEF 0 0 0 &&
     vector cfgA "SWRI [60+:8]" 0x0000083C0125 0xFF 0 0xFF000000000000000 0 0 0 &&
     vector cfgA "SWRI [100+:20]"
            0x000014640125 0 0xFFFFFFFFFFFFFFFFFFFFFFFFFFFFFFFF 0xFF00000FFFFFFFFFFFFFFFFFFFFFFFFF 0 0 0 &&
     vector cfgA "SWRI [127:28]"
            0x00001C7F0025 0xFFFFFFFFFFFFFFFF 0 0xFFFFFFFFFFFFFFFF0000000 0 0 0) = true := by decide

/-- 95_test_vectors.md S28 to S40, the rows of SWRS. -/
theorem test_swrs :
    (vector cfgD "SWRS [11:8], [7:4]" 0x0407080B0026 0 0xF0 0xFF0 0 0 0 &&
     vector cfgD "SWRS [7:4], [7:4]" 0x040704070026 0 0xF0 0xF0 0 0 0 &&
     vector cfgD "SWRS [7:0], [11:4]" 0x040B00070026 0 0xF0F 0xFF0 0 0 0 &&
     vector cfgD "SWRS [11:4], [7:0]" 0x0007040B0026 0 0xF0F 0xFF 0 0 0 &&
     vector cfgD "SWRS [15:4], [3:0]" 0x0003040F0026 0 0xFF 0xFF 0 0 0 &&
     vector cfgD "SWRS [3:0], [15:4]" 0x040F00030026 0 0xF00F 0xF000 0 0 0 &&
     vector cfgD "SWRS [3:0], [16:4]" 0x041000030026 0 0 0 0 0 0x21 &&
     vector cfgD "SWRS [20:0], [16:4]" 0x041000140026 0 0 0 0 0 0x21 &&
     vector cfgD "SWRS [15:8], [4+:0]" 0x0004080F0426 0 0xFFFF 0xFF 0 0 0) = true := by decide

/-- 95_test_vectors.md X1 to X12: illegal words. -/
theorem test_illegal_words :
    [0x000000000000, 0x000000000003, 0x000000000027, 0x000000002010, 0x000000010010, 0x000000021013,
     0x010804070023, 0x000804070323, 0x000804070423, 0x000304070C26, 0x000104070025, 0x000000634013].all
      (fun cmd => slotGives cfgD cmd 0 0xFF 0xFF 0 0 0x11) = true := by decide

/-! ### Reset, the halt, and the unchecked block -/

/-- The state holds these values, and the block is ready or not. -/
def holds (r : Result) (V R F STATUS FCMD : Nat) (ready : Bool) : Bool :=
  match r with
  | .next t => t.V.toNat == V && t.R.toNat == R && t.F.toNat == F && t.status.toNat == STATUS &&
      t.fcmd.toNat == FCMD && t.cmd_ready == ready
  | _ => false

/-- RS1 to RS3: `rst`, with a command presented beside it (R230). -/
theorem test_reset_slot :
    (holds (step { presenting cfgA 0xFF 0x10 0 with R := 0x46#128, F := true, host := [{ rst := true }] })
      0 0 0 0 0 true &&
     holds (step { presenting cfgD 0xFF 0x10 0 with FAULT := true, CAUSE := 5#4, FCMD := 0x101014#48,
                                                    host := [{ rst := true, cmd_valid := true, cmd := 0x1014#48 }] })
      0 0 0 0 0 true &&
     holds (step { presenting cfgInit 0xFF 0x10 0 with host := [{ rst := true }] }) 0xA5A5 0 0 0 0 true) = true := by
  decide

/-- H1: the violation, and CLR not accepted after it. -/
theorem test_halt :
    (holds (step { presenting cfgD 0xFFFF 0x100013 0 with R := 7#64, F := true }) 0xFFFF 7 1 0x51 0x100013 false &&
     holds (step { presenting cfgD 0xFFFF 0x10 0 with FAULT := true, CAUSE := 5#4, FCMD := 0x100013#48 })
      0xFFFF 0 0 0x51 0x100013 false) = true := by decide

/-- R205: the same violation in the unchecked block, and a legal command there. -/
theorem test_unchecked :
    step (presenting cfgU 0xFFFF 0x100013 0) = .fault (.undefinedBehaviour .bitIndex) ∧
    step (presenting cfgU 0xFFFF 0x27 0) = .fault (.undefinedBehaviour .illegalEncoding) ∧
    slotGives cfgU 0xF0013 0 0x8000 0x8000 0 1 0 = true :=
  ⟨rfl, rfl, by decide⟩

/-- A presented table word runs first: MASK 0, 0 at once after reset. -/
theorem test_with_fetch_word :
    holds (step (State.reset.withFetchWord 48 0x000046800001)) 0 (2 ^ 70 - 1) 0 0 0 true = true := by decide

/-! ### Witnesses: states and operands that meet the hypotheses of the statements, clause by clause -/

theorem witness_FieldsStandAtTheirBitNumbers :
    max cfgC.N cfgC.DW ≤ max cfgC.N cfgC.DW ∧ max cfgC.N cfgC.DW = 199 := by
  decide

theorem witness_DecodeOfEncode :
    (Instr.mask 255 255).wf cfgA = true ∧ (Instr.conv 255 255).wf cfgA = true ∧ (Instr.set 255 true).wf cfgA = true ∧
    (Instr.swrs (.hiLo 255 255) (.hiWidth 255 255)).wf cfgA = true := by decide

theorem witness_EncodeOfDecode :
    decode cfgA 0xFFFFFFFF0926#48 = .ok (.swrs (.loWidth 255 255) (.hiWidth 255 255)) := by
  decide

theorem witness_HeaderTableSelectsTheCommand :
    decode cfgA 0x000203081121#48 = .ok (.sset (.loWidth 8 3) 2 true) ∧
    decode cfgA 0x27#48 = .error .unassignedOp := by
  decide

/-- One witness for each clause: OP, RSV, a field marked 0 (MD, MS, VB, A, B, C, D), mode 3 (MD, MS), the slot. -/
theorem witness_IllegalWordsRaiseIllegalEncoding :
    (Fields.ofWord cfgA 0x1C#48).OP.toNat = 0x1C ∧ (Fields.ofWord cfgA 0x2010#48).RSV ≠ 0#3 ∧
    (⟨"CLR", 0x0010, 0xFFFF, .z⟩ : HeaderRow) ∈ headerTable ∧
    (Fields.ofWord cfgA 0x0110#48).OP = (0x0010#16).setWidth 8 ∧
    (Fields.ofWord cfgA 0x0110#48).MD ≠ 0#2 ∧ (Fields.ofWord cfgA 0x0410#48).MS ≠ 0#2 ∧
    (Fields.ofWord cfgA 0x1010#48).VB = true ∧ (Fields.ofWord cfgA 0x000000010010#48).A ≠ 0 ∧
    (Fields.ofWord cfgA 0x000001000010#48).B ≠ 0 ∧ (Fields.ofWord cfgA 0x000100000010#48).C ≠ 0 ∧
    (Fields.ofWord cfgA 0x010000000010#48).D ≠ 0 ∧
    (⟨"SWRS", 0x0026, 0xF0FF, .ss⟩ : HeaderRow) ∈ headerTable ∧ (Fields.ofWord cfgA 0x0326#48).MD = 3#2 ∧
    (Fields.ofWord cfgA 0x0C26#48).MS = 3#2 ∧
    (presenting cfgA 0 0x2010 0).port.rst = false ∧ (presenting cfgA 0 0x2010 0).port.cmd_valid = true ∧
    (presenting cfgA 0 0x2010 0).cmd_ready = true ∧
    decode cfgA (presenting cfgA 0 0x2010 0).port.cmd = .error .reservedBits := by decide

theorem witness_AcceptedWordRunsDecodedCommand :
    (presenting cfgA 0 0x46800001 0).port.rst = false ∧ (presenting cfgA 0 0x46800001 0).port.cmd_valid = true ∧
    (presenting cfgA 0 0x46800001 0).cmd_ready = true ∧
    decode cfgA (presenting cfgA 0 0x46800001 0).port.cmd = .ok (.mask 128 70) := by decide

theorem witness_PresentedTableWordRuns : decodeTableWord 48 0x46800001 = some (.mask 128 70) := by decide

/-- A block of configuration D halted by TEST 16, the host going on with `ps`. -/
def haltedD (ps : List (Port cfgD)) : State :=
  { State.resetOf cfgD ps with V := 0xFFFF#16, FAULT := true, CAUSE := 5#4, FCMD := 0x100013#48 }

theorem witness_SlotWithoutCommandChangesNothing :
    State.reset.port.rst = false ∧ State.reset.port.cmd_valid = false ∧
    (haltedD [{ cmd_valid := true }]).port.rst = false ∧ (haltedD [{ cmd_valid := true }]).cmd_ready = false := by
  decide

theorem witness_ResetSlotGivesResetValues :
    (haltedD [{ rst := true, cmd_valid := true }]).port.rst = true := by decide

theorem witness_StepKeepsBuildParameters : step State.reset = .next State.reset := rfl

theorem reports_testBit16 (c : Bool) :
    Reports { cfgD with CHECKED := c } (BitVec.ofNat 48 0x100013) .bitIndex := by
  refine Reports.of_ok (i := .test 16) (by cases c <;> decide) ?_ ?_
  · exact ⟨16, List.mem_singleton.mpr rfl, Nat.le_refl 16⟩
  · intro k h
    cases k <;> first | decide | simp [Breaks, sliceOperands, portWidths, sliceIndices] at h

/-- The MASK of M10 breaks two preconditions, and reports the one with the lower code. -/
theorem reports_mask129 : Reports cfgA (BitVec.ofNat 48 0xC8810001) .portWidth := by
  refine Reports.of_ok (i := .mask 129 200) (by decide) ?_ ?_
  · exact ⟨129, List.mem_singleton.mpr rfl, by decide⟩
  · intro k h
    cases k <;> first | decide | simp [Breaks, sliceOperands] at h

theorem witness_ViolationReportsLowestCause :
    ((presenting cfgD 0 0x100013 0).port.rst = false ∧ (presenting cfgD 0 0x100013 0).port.cmd_valid = true ∧
      (presenting cfgD 0 0x100013 0).cmd_ready = true ∧ cfgD.CHECKED = true ∧
      Reports cfgD (presenting cfgD 0 0x100013 0).port.cmd .bitIndex) ∧
    ((presenting cfgU 0 0x100013 0).port.rst = false ∧ (presenting cfgU 0 0x100013 0).port.cmd_valid = true ∧
      (presenting cfgU 0 0x100013 0).cmd_ready = true ∧ cfgU.CHECKED = false ∧
      Reports cfgU (presenting cfgU 0 0x100013 0).port.cmd .bitIndex) ∧
    ∃ k, WordBreaks cfgA (BitVec.ofNat 48 0xC8810001) k :=
  ⟨⟨by decide, by decide, by decide, rfl, reports_testBit16 true⟩,
    ⟨by decide, by decide, by decide, rfl, reports_testBit16 false⟩, ⟨_, reports_mask129.1⟩⟩

theorem witness_LegalCommandCompletes :
    (presenting cfgA 0 0x80800001 0).port.rst = false ∧ (presenting cfgA 0 0x80800001 0).port.cmd_valid = true ∧
    (presenting cfgA 0 0x80800001 0).cmd_ready = true ∧
    ∀ k, ¬ WordBreaks cfgA (presenting cfgA 0 0x80800001 0).port.cmd k := by
  refine ⟨by decide, by decide, by decide, fun k h => ?_⟩
  have hb := h.of_ok (i := .mask 128 128) (by decide)
  cases k <;> revert hb <;> simp [Breaks, sliceOperands, portWidths, sliceIndices, bitIndices, maskWidths]; decide

theorem halted_haltedD (ps : List (Port cfgD)) : (haltedD ps).halted :=
  (halted_iff _).mpr ⟨rfl, rfl⟩

theorem witness_HaltedBlockHoldsItsState :
    State.reset.cfg.CHECKED = true ∧ (haltedD [{ cmd_valid := true, cmd := 0x10#48 }]).halted ∧
    ∀ p ∈ (haltedD [{ cmd_valid := true, cmd := 0x10#48 }]).host, p.rst = false :=
  ⟨rfl, halted_haltedD _, by decide⟩

/-- For each of the two conclusions: a step that leaves the block not halted, and a slot with `rst`. -/
theorem witness_OnlyResetEndsTheHalt :
    (haltedD [{ rst := true }]).halted ∧ step (haltedD [{ rst := true }]) = .next (State.resetOf cfgD []) ∧
    ¬ (State.resetOf cfgD []).halted ∧ (haltedD [{ rst := true }]).port.rst = true :=
  ⟨halted_haltedD _, rfl, by rw [State.halted]; decide, rfl⟩

/-- A legal slot, then TEST 16, then CLR: the run ends halted. -/
theorem witness_FirstViolationStaysRecorded :
    let slots : List (Port cfgD) := [{ cmd_valid := true, cmd := 0x10#48 }, { cmd_valid := true, cmd := 0x100013#48 },
      { cmd_valid := true, cmd := 0x10#48 }]
    cfgD.CHECKED = true ∧ (State.resetOf cfgD slots).FAULT = false ∧
    (∀ p ∈ (State.resetOf cfgD slots).host, p.rst = false) ∧
    ∃ t, Sys2Proof.core.run 3 (State.resetOf cfgD slots) = .next t ∧ t.FAULT = true :=
  ⟨rfl, rfl, by decide, _, rfl, rfl⟩

/-- A halted state with the invariant, and its next slot. -/
theorem witness_StepKeepsRecordInvariant : (haltedD []).Inv ∧ step (haltedD []) = .next (haltedD []) :=
  ⟨⟨fun h => Bool.noConfusion h, fun h => Bool.noConfusion h, fun _ => ⟨.bitIndex, rfl, reports_testBit16 true⟩⟩, rfl⟩

theorem witness_StatusShowsFaultAndCause : (haltedD []).cfg.CHECKED = true := rfl

theorem witness_UncheckedBlockReadsNoRecord :
    (presenting cfgU 0 0x100013 0).cfg.CHECKED = false ∧ (presenting cfgU 0 0x100013 0).port.rst = false ∧
    (presenting cfgU 0 0x100013 0).port.cmd_valid = true ∧
    Reports cfgU (presenting cfgU 0 0x100013 0).port.cmd .bitIndex :=
  ⟨rfl, by decide, by decide, reports_testBit16 false⟩

/-! Operand bounds in configuration A (N = DW = 128, FW = 8), at the last value that completes and the first that
does not. `stA` is the state after reset. -/

def stA : State := State.reset

theorem witness_MaskWritesLowOnes :
    (255 < 2 ^ stA.cfg.FW) ∧ (stA.cfg.DW < 129) ∧ (128 ≤ stA.cfg.DW ∧ 128 < 129) ∧ (128 ≤ stA.cfg.DW ∧ 128 ≤ 128) ∧
    (0 ≤ stA.cfg.DW ∧ 0 ≤ 0) := by decide

theorem witness_ConvWritesConvertedSource :
    (255 < 2 ^ stA.cfg.FW) ∧ (stA.cfg.DW < 129 ∨ stA.cfg.DW < 0) ∧ (stA.cfg.DW < 0 ∨ stA.cfg.DW < 129) ∧
    (128 ≤ stA.cfg.DW) := by decide

theorem witness_MaskAlgorithmGivesMask : 70 ≤ 128 ∧ 128 ≤ 128 ∧ 0 ≤ 0 ∧ 63 ≤ 63 := by decide

theorem witness_PositionedMaskCoversSlice :
    100 + 28 ≤ stA.cfg.N ∧ 128 + 0 ≤ stA.cfg.N ∧ stA.FAULT = false := by decide

theorem witness_ConvertKeepsLowBits : (64 : Nat) < 65 ∧ (64 : Nat) < 128 := by decide

/-- A block of one bit. -/
theorem witness_AnyAllNoneQueryVector :
    (State.resetOf { Config.default with N := 1, INIT := 0#1, N_pos := by decide, DW_ge := by decide,
                                         FW_ge := by decide } []).cfg.N = 1 := rfl

theorem witness_LoadTakesSourceBits :
    255 < 2 ^ stA.cfg.FW ∧ stA.cfg.DW < 129 ∧ 128 ≤ stA.cfg.DW ∧ 127 < stA.cfg.N := by decide

theorem witness_ReadvGivesVectorBits : 255 < 2 ^ stA.cfg.FW ∧ stA.cfg.DW < 129 ∧ 128 ≤ stA.cfg.DW := by decide

/-- The bounds of TEST, SET, RESET and FLIP. -/
theorem witness_TestReadsBit : 255 < 2 ^ stA.cfg.FW ∧ stA.cfg.N ≤ 128 ∧ 127 < stA.cfg.N := by decide

theorem witness_SetWritesOneBit : 255 < 2 ^ stA.cfg.FW ∧ stA.cfg.N ≤ 128 ∧ 127 < stA.cfg.N ∧ 126 ≠ 127 := by decide

theorem witness_ResetCommandClearsOneBit :
    255 < 2 ^ stA.cfg.FW ∧ stA.cfg.N ≤ 128 ∧ 127 < stA.cfg.N ∧ 126 ≠ 127 := by decide

theorem witness_FlipInvertsOneBit : 255 < 2 ^ stA.cfg.FW ∧ stA.cfg.N ≤ 128 ∧ 127 < stA.cfg.N ∧ 126 ≠ 127 := by decide

/-! Slices of 128 bits: the last legal and the first illegal operand of each form. -/

theorem denotes_whole : Denotes stA.cfg.N (.hiLo 127 0) 0 128 := by
  refine ⟨?_, rfl, rfl⟩
  show 0 ≤ 127 ∧ 127 < 128
  decide

theorem denotes_empty : Denotes stA.cfg.N (.loWidth 128 0) 128 0 :=
  ⟨(by decide : 128 + 0 ≤ 128), rfl, rfl⟩

theorem denotes_top : Denotes stA.cfg.N (.hiWidth 127 128) 0 128 := by
  refine ⟨?_, rfl, rfl⟩
  show 128 ≤ 127 + 1 ∧ 127 < 128
  decide

theorem illegal_above : ¬ LegalSlice stA.cfg.N (.hiLo 128 0) := by
  show ¬ (0 ≤ 128 ∧ 128 < 128)
  decide

theorem illegal_swapped : ¬ LegalSlice stA.cfg.N (.hiLo 3 4) := by
  show ¬ (4 ≤ 3 ∧ 3 < 128)
  decide

theorem illegal_loWidth : ¬ LegalSlice stA.cfg.N (.loWidth 128 1) := by
  show ¬ (128 + 1 ≤ 128)
  decide

theorem illegal_hiWidth : ¬ LegalSlice stA.cfg.N (.hiWidth 3 5) := by
  show ¬ (5 ≤ 3 + 1 ∧ 3 < 128)
  decide

theorem witness_SliceOperandsDecode :
    resolve stA.cfg.N (.hiLo 127 0) = some ⟨0, 128⟩ ∧ resolve stA.cfg.N (.hiWidth 127 128) = some ⟨0, 128⟩ ∧
    resolve stA.cfg.N (.hiLo 128 0) = none ∧ resolve stA.cfg.N (.loWidth 128 1) = none ∧
    resolve stA.cfg.N (.hiWidth 3 5) = none := by decide

/-- The clauses of a slice bit command: encodable, mode 3, illegal, index at the width, last index. -/
theorem witness_SgetReadsSliceBit :
    ((SliceOperand.hiLo 255 255).wf cfgA = true ∧ 255 < 2 ^ cfgA.FW) ∧ ¬ LegalSlice stA.cfg.N (.hiLo 128 0) ∧
    (Denotes stA.cfg.N (.hiLo 127 0) 0 128 ∧ 128 ≤ 128) ∧ (Denotes stA.cfg.N (.hiLo 127 0) 0 128 ∧ 127 < 128) :=
  ⟨by decide, illegal_above, ⟨denotes_whole, by decide⟩, ⟨denotes_whole, by decide⟩⟩

theorem witness_SsetWritesSliceBit :
    ((SliceOperand.loWidth 255 255).wf cfgA = true ∧ 255 < 2 ^ cfgA.FW) ∧ ¬ LegalSlice stA.cfg.N (.loWidth 128 1) ∧
    (Denotes stA.cfg.N (.loWidth 128 0) 128 0 ∧ 0 ≤ 0) ∧ (Denotes stA.cfg.N (.hiLo 127 0) 0 128 ∧ 127 < 128 ∧
    126 ≠ 127) :=
  ⟨by decide, illegal_loWidth, ⟨denotes_empty, by decide⟩, ⟨denotes_whole, by decide⟩⟩

theorem witness_SflipInvertsSliceBit :
    ((SliceOperand.hiWidth 255 255).wf cfgA = true ∧ 255 < 2 ^ cfgA.FW) ∧ ¬ LegalSlice stA.cfg.N (.hiWidth 3 5) ∧
    (Denotes stA.cfg.N (.hiWidth 127 128) 0 128 ∧ 128 ≤ 128) ∧
    (Denotes stA.cfg.N (.hiWidth 127 128) 0 128 ∧ 127 < 128 ∧ 126 ≠ 127) :=
  ⟨by decide, illegal_hiWidth, ⟨denotes_top, by decide⟩, ⟨denotes_top, by decide⟩⟩

theorem witness_SrdReadsSliceRightJustified :
    ((SliceOperand.hiLo 255 255).wf cfgA = true ∧ 255 < 2 ^ cfgA.FW) ∧ ¬ LegalSlice stA.cfg.N (.hiLo 3 4) ∧
    (LegalSlice stA.cfg.N (.hiLo 127 0) ∧ stA.cfg.DW < 129) ∧ (Denotes stA.cfg.N (.hiLo 127 0) 0 128 ∧
    128 ≤ stA.cfg.DW) :=
  ⟨by decide, illegal_swapped, ⟨denotes_whole.1, by decide⟩, ⟨denotes_whole, by decide⟩⟩

theorem witness_SliceWriteBitByBit :
    (100 + 28 ≤ 128) ∧ (100 ≤ 103 ∧ 103 < 100 + 28 ∧ 103 - 100 < 4) ∧ (100 ≤ 104 ∧ 104 < 100 + 28 ∧ 4 ≤ 104 - 100) ∧
    (99 < 100) ∧ (64 + 20 ≤ 84) := by decide

theorem witness_SwrWritesSliceFromDin :
    ((SliceOperand.loWidth 255 255).wf cfgA = true ∧ 255 < 2 ^ cfgA.FW) ∧ ¬ LegalSlice stA.cfg.N (.loWidth 128 1) ∧
    (LegalSlice stA.cfg.N (.loWidth 128 0) ∧ stA.cfg.DW < 129) ∧
    (Denotes stA.cfg.N (.hiLo 127 0) 0 128 ∧ 128 ≤ stA.cfg.DW ∧ 127 < 128) ∧
    (Denotes stA.cfg.N (.loWidth 128 0) 128 0 ∧ 0 ≤ stA.cfg.DW ∧ 127 < 128) :=
  ⟨by decide, illegal_loWidth, ⟨denotes_empty.1, by decide⟩, ⟨denotes_whole, by decide⟩, ⟨denotes_empty, by decide⟩⟩

theorem witness_SwriWritesSliceFromScalar :
    (SliceOperand.hiWidth 255 255).wf cfgA = true ∧ ¬ LegalSlice stA.cfg.N (.hiWidth 3 5) ∧
    Denotes stA.cfg.N (.hiWidth 127 128) 0 128 ∧ Denotes stA.cfg.N (.loWidth 128 0) 128 0 :=
  ⟨by decide, illegal_hiWidth, denotes_top, denotes_empty⟩

theorem witness_SwrsCopiesSlice :
    ((SliceOperand.hiLo 255 255).wf cfgA = true ∧ (SliceOperand.loWidth 255 255).wf cfgA = true) ∧
    ¬ LegalSlice stA.cfg.N (.hiLo 128 0) ∧
    (Denotes stA.cfg.N (.hiLo 127 0) 0 128 ∧ Denotes stA.cfg.N (.loWidth 128 0) 128 0) ∧
    (3 < 4 ∧ 255 < 2 ^ cfgA.FW) :=
  ⟨by decide, illegal_above, ⟨denotes_whole, denotes_empty⟩, by decide⟩

theorem witness_SwrsEqualsWriteOfCapturedSource :
    Denotes stA.cfg.N (.hiLo 127 0) 0 128 ∧ (0#128).toNat = stA.V.toNat / 2 ^ 0 % 2 ^ 128 :=
  ⟨denotes_whole, by decide⟩

theorem witness_SliceReadsAreConsistent : Denotes stA.cfg.N (.hiLo 127 0) 0 128 ∧ 127 < 128 :=
  ⟨denotes_whole, by decide⟩

/-- A command that breaks no precondition, and one that breaks its own. -/
theorem witness_CommandsWriteOnlyTheirRegisters :
    exec .clr stA = .next stA ∧ writesR .clr = false ∧ writesF .clr = false ∧ writesV .any = false ∧
    (∀ k, ¬ Breaks stA.cfg .clr k) ∧
    (∃ t, exec (.test 128) stA = .next t) ∧ ∃ k, Breaks stA.cfg (.test 128) k :=
  ⟨rfl, rfl, rfl, rfl,
    fun k h => by cases k <;> simp [Breaks, sliceOperands, portWidths, sliceIndices, bitIndices, maskWidths] at h,
    ⟨_, rfl⟩, .bitIndex, 128, List.mem_singleton.mpr rfl, Nat.le_refl 128⟩

theorem witness_NoCommandReadsResultRegisters :
    writesF .clr = false ∧ exec .clr stA = .next stA ∧ writesR .count = true ∧ writesF .any = true ∧
    (∀ k, ¬ Breaks stA.cfg .count k) ∧ ∀ k, ¬ Breaks stA.cfg .any k :=
  ⟨rfl, rfl, rfl, rfl,
    fun k h => by cases k <;> simp [Breaks, sliceOperands, portWidths, sliceIndices, bitIndices, maskWidths] at h,
    fun k h => by cases k <;> simp [Breaks, sliceOperands, portWidths, sliceIndices, bitIndices, maskWidths] at h⟩

theorem witness_DinIgnoredByOtherCommands : readsDin (.swrs (.hiLo 3 0) (.hiLo 7 4)) = false := rfl

theorem witness_RepeatedCommands :
    exec .any stA = .next stA ∧ onlyReadsV .any = true ∧ (∀ k, ¬ Breaks stA.cfg .any k) ∧
    (∃ t, exec (.flip 127) stA = .next t) ∧
    (∃ t, exec (.load 128) stA = .next t) ∧ (∃ t, exec (.swrs (.loWidth 0 64) (.loWidth 64 64)) stA = .next t) ∧
    Denotes stA.cfg.N (.loWidth 0 64) 0 64 ∧ Denotes stA.cfg.N (.loWidth 64 64) 64 64 ∧
    ∀ k, ¬ (0 ≤ k ∧ k < 0 + 64 ∧ 64 ≤ k ∧ k < 64 + 64) :=
  ⟨rfl, rfl, witness_NoCommandReadsResultRegisters.2.2.2.2.2, ⟨_, rfl⟩, ⟨_, rfl⟩, ⟨_, rfl⟩,
    ⟨(by decide : 0 + 64 ≤ 128), rfl, rfl⟩,
    ⟨(by decide : 64 + 64 ≤ 128), rfl, rfl⟩, fun k h => by omega⟩

theorem witness_PseudoInstructionsExpand :
    127 < stA.cfg.N ∧ Denotes stA.cfg.N (.loWidth 128 0) 128 0 ∧ Denotes stA.cfg.N (.hiLo 127 0) 0 128 ∧
    128 ≤ stA.cfg.DW :=
  ⟨by decide, denotes_empty, denotes_whole, by decide⟩

end Sys2Proof.Tests
end

section
/-! The Width Converter at the value level (00_scope.md R6, 41_convert.md R113). -/

namespace Sys2Proof.Machine

theorem convert_self {M : Nat} (v : BitVec M) : convert M v = v := BitVec.setWidth_eq v

/-- Widening is zero extension: the value fits the wider destination, so none of it is discarded. -/
theorem convert_toNat_of_le {M D : Nat} (h : M ≤ D) (v : BitVec M) : (convert D v).toNat = v.toNat := by
  have fits : v.toNat < 2 ^ D := v.isLt.trans_le (Nat.pow_le_pow_right (by decide) h)
  rw [convert_toNat, Nat.mod_eq_of_lt fits]

/-- R6's form of `convert_getLsbD`: the source has no bit at or above its own width `M`, so the bound `D` of the
destination is as good as `min M D`. -/
theorem convert_getLsbD_min {M : Nat} (D : Nat) (v : BitVec M) (j : Nat) :
    (convert D v).getLsbD j = (decide (j < min M D) && v.getLsbD j) := by
  rw [convert_getLsbD]
  by_cases hM : j < M
  · simp [hM]
  · simp [BitVec.getLsbD_of_ge v j (Nat.not_lt.mp hM)]

/-- Settles O27: identity, zero extension, truncation, and R6's bitwise form that covers all three. -/
theorem convertKeepsLowBits : Obligations.ConvertKeepsLowBits := fun _ D v =>
  ⟨convert_self v, fun h => convert_toNat_of_le h.le v, fun _ => convert_toNat D v, convert_getLsbD_min D v⟩

end Sys2Proof.Machine
end

section
/-! The reset values of the state (10_state.md R33). -/

namespace Sys2Proof.Machine

/-- With FAULT and CAUSE 0, STATUS reads 0 in either configuration: stored so, or hardwired (R29, R30). -/
theorem resetOf_status (c : Config) (host : List (Port c)) : (State.resetOf c host).status = 0#8 :=
  ite_eq_right_iff.mpr fun _ => (by decide : statusWord 0#4 false = 0#8)

theorem resetOf_cmd_ready (c : Config) (host : List (Port c)) : (State.resetOf c host).cmd_ready = true := by
  rw [State.cmd_ready, State.err, resetOf_status]; rfl

/-- Settles O11: the stored fields are `resetOf`'s own; STATUS and `cmd_ready` are read through the outputs. -/
theorem stateAfterReset : Obligations.StateAfterReset :=
  ⟨fun c host => ⟨rfl, rfl, rfl, rfl, rfl, resetOf_status c host, rfl, resetOf_cmd_ready c host⟩,
    Config.default, [], rfl⟩

end Sys2Proof.Machine
end

section
/-! Commands run from two states of one build: they make the same checks, so they raise the same violation, and
where none is broken the answers can be compared behind the checks. -/

namespace Sys2Proof.Machine

/-- Which violation a command raises depends on the build alone. -/
theorem exec_raise_of_breaks {i : Instr} {s s' : State} (hc : s'.cfg = s.cfg) (hb : ∃ k, Breaks s.cfg i k) :
    ∃ k, exec i s = raise k s ∧ exec i s' = raise k s' := by
  obtain ⟨k, hk, hmin, hs⟩ | ⟨hn, -⟩ := exec_cases i s
  · obtain ⟨k', hk', hmin', hs'⟩ | ⟨hn', -⟩ := exec_cases i s'
    · rw [hc] at hk' hmin'
      have hkk : k = k' := Cause.code_injective (BitVec.le_antisymm (hmin k' hk') (hmin' k hk))
      exact ⟨k, hs, hkk ▸ hs'⟩
    · exact absurd (hc ▸ hk) (hn' k)
  · exact absurd hb.choose_spec (hn _)

section
variable {i : Instr} {s s' : State} {g : State → State} (hb : ∀ k, ¬ Breaks s.cfg i k) (hc : s'.cfg = s.cfg)
include hb hc

theorem needPort_mapNext {w : Nat} {a b : Result} (hw : w ∈ portWidths i) (h : b = mapNext g a) :
    needPort s' w b = mapNext g (needPort s w a) := by
  have hle : w ≤ s.cfg.DW := Nat.not_lt.mp fun hlt => hb .portWidth ⟨w, hw, hlt⟩
  rw [needPort_of hle, needPort_of (hc ▸ hle), h]

theorem needBit_mapNext {n : Nat} {a b : Result} (hn : n ∈ bitIndices i) (h : b = mapNext g a) :
    needBit s' n b = mapNext g (needBit s n a) := by
  have hlt : n < s.cfg.N := Nat.not_le.mp fun hle => hb .bitIndex ⟨n, hn, hle⟩
  rw [needBit_of hlt, needBit_of (hc ▸ hlt), h]

omit hc in
theorem requireMaskWidth_mapNext {K w : Nat} {a b : Result} (hp : (K, w) ∈ maskWidths i) (h : b = mapNext g a) :
    require (decide (w ≤ K)) .maskWidth s' b = mapNext g (require (decide (w ≤ K)) .maskWidth s a) := by
  have hle : w ≤ K := Nat.not_lt.mp fun hlt => hb .maskWidth ⟨(K, w), hp, hlt⟩
  rw [require_of (decide_eq_true hle), require_of (decide_eq_true hle), h]

omit hc in
theorem exists_denotes_of_not_breaks {sl : SliceOperand} (hsl : sl ∈ sliceOperands i) :
    ∃ lo width, Denotes s.cfg.N sl lo width :=
  LegalSlice.denotes (not_not.mp fun hn => hb .sliceBounds ⟨sl, hsl, hn⟩)

theorem withSlice_mapNext {sl : SliceOperand} {a b : Slice → Result} (hsl : sl ∈ sliceOperands i)
    (h : ∀ r, b r = mapNext g (a r)) : withSlice s' sl b = mapNext g (withSlice s sl a) := by
  obtain ⟨lo, width, hd⟩ := exists_denotes_of_not_breaks hb hsl
  rw [withSlice_of hd, withSlice_of (hc ▸ hd), h]

theorem withSliceBit_mapNext {sl : SliceOperand} {n : Nat} {a b : Nat → Result} (hsl : sl ∈ sliceOperands i)
    (hn : (sl, n) ∈ sliceIndices i) (h : ∀ k, b k = mapNext g (a k)) :
    withSliceBit s' sl n b = mapNext g (withSliceBit s sl n a) := by
  obtain ⟨lo, width, hd⟩ := exists_denotes_of_not_breaks hb hsl
  have hlt : n < width := Nat.not_le.mp fun hle => hb .sliceIndex ⟨(sl, n), hn, lo, width, hd, hle⟩
  rw [withSliceBit_of hd hlt, withSliceBit_of (hc ▸ hd) hlt, h]

end

end Sys2Proof.Machine
end

section
/-! R and F are written and never read (10_state.md R25). States that differ only in R and F are those with one
value of `State.clearResults`, so each fact compares a command's answer with its answer from the cleared state. -/

namespace Sys2Proof.Machine

/-- The state with R and F cleared. -/
def State.clearResults (s : State) : State := { s with R := 0#s.cfg.DW, F := false }

/-- The state with R and F cleared where the command does not write them. -/
def State.clearUnwritten (i : Instr) (s : State) : State :=
  { s with R := if writesR i then s.R else 0#s.cfg.DW, F := if writesF i then s.F else false }

/-- No command writes both R and F. -/
theorem writesF_of_writesR {i : Instr} (h : writesR i = true) : writesF i = false := by
  cases i with
  | mask | conv | readv | count | srd => rfl
  | _ => cases h

theorem clearUnwritten_of_writesR {i : Instr} (h : writesR i = true) :
    State.clearUnwritten i = fun t => { t with F := false } := by
  funext t; simp [State.clearUnwritten, h, writesF_of_writesR h]

theorem clearUnwritten_of_writesF {i : Instr} (h : writesF i = true) :
    State.clearUnwritten i = fun t => { t with R := 0#t.cfg.DW } := by
  have hR : ¬ writesR i = true := fun hR => by simp [writesF_of_writesR hR] at h
  funext t; simp [State.clearUnwritten, h, hR]

theorem mapNext_clearResults_clearUnwritten (i : Instr) (r : Result) :
    mapNext State.clearResults (mapNext (State.clearUnwritten i) r) = mapNext State.clearResults r := by
  cases r <;> rfl

/-- A violation records the same whatever R and F hold, and keeps them. -/
theorem raise_clearResults (k : Cause) (s : State) :
    raise k s.clearResults = mapNext State.clearResults (raise k s) := by
  rw [raise_eq, raise_eq, apply_ite (mapNext State.clearResults)]; rfl

/-- What a command that breaks no precondition gives from the cleared state, R or F where it writes one included,
is what it gives from the state itself: behind the checks, no value it writes mentions R or F. -/
theorem exec_clearResults {i : Instr} {s : State} (hb : ∀ k, ¬ Breaks s.cfg i k) :
    exec i s.clearResults = mapNext (State.clearUnwritten i) (exec i s) := by
  have hc : s.clearResults.cfg = s.cfg := rfl
  cases i with
  | mask K w => exact needPort_mapNext hb hc (.head _) (requireMaskWidth_mapNext hb (.head _) rfl)
  | conv Ws Wd => exact needPort_mapNext hb hc (.head _) (needPort_mapNext hb hc (.tail _ (.head _)) rfl)
  | load Ws => exact needPort_mapNext hb hc (.head _) rfl
  | readv Wd => exact needPort_mapNext hb hc (.head _) rfl
  | test n => exact needBit_mapNext hb hc (.head _) rfl
  | set n v => exact needBit_mapNext hb hc (.head _) rfl
  | reset n => exact needBit_mapNext hb hc (.head _) rfl
  | flip n => exact needBit_mapNext hb hc (.head _) rfl
  | clr | any | all | none | count | eq => rfl
  | sget sl n => unfold exec execSget; exact withSliceBit_mapNext hb hc (.head _) (.head _) fun _ => rfl
  | sset sl n v => unfold exec execSset; exact withSliceBit_mapNext hb hc (.head _) (.head _) fun _ => rfl
  | sflip sl n => unfold exec execSflip; exact withSliceBit_mapNext hb hc (.head _) (.head _) fun _ => rfl
  | srd sl Wd => exact withSlice_mapNext hb hc (.head _) fun _ => needPort_mapNext hb hc (.head _) rfl
  | swr sl Ws => exact withSlice_mapNext hb hc (.head _) fun _ => needPort_mapNext hb hc (.head _) rfl
  | swri sl => exact withSlice_mapNext hb hc (.head _) fun _ => rfl
  | swrs dst src =>
    exact withSlice_mapNext hb hc (.head _) fun _ => withSlice_mapNext hb hc (.tail _ (.head _)) fun _ => rfl

section
variable {i : Instr} {s s' : State} (h : s'.clearResults = s.clearResults)
include h

theorem cfg_eq_of_clearResults_eq : s'.cfg = s.cfg :=
  show s'.clearResults.cfg = s.clearResults.cfg from congrArg State.cfg h

theorem exec_clearUnwritten_congr (hb : ∀ k, ¬ Breaks s.cfg i k) :
    mapNext (State.clearUnwritten i) (exec i s') = mapNext (State.clearUnwritten i) (exec i s) := by
  have hc := cfg_eq_of_clearResults_eq h
  rw [← exec_clearResults (hc ▸ hb), h, exec_clearResults hb]

theorem exec_clearResults_congr :
    mapNext State.clearResults (exec i s') = mapNext State.clearResults (exec i s) := by
  by_cases hb : ∃ k, Breaks s.cfg i k
  · obtain ⟨k, hs, hs'⟩ := exec_raise_of_breaks (cfg_eq_of_clearResults_eq h) hb
    rw [hs, hs', ← raise_clearResults, h, raise_clearResults]
  · have hok := exec_clearUnwritten_congr h (not_exists.mp hb)
    rw [← mapNext_clearResults_clearUnwritten i, hok, mapNext_clearResults_clearUnwritten]

end

/-- A command outside R24's list keeps F, whether it completes or raises a violation. -/
theorem exec_keeps_F {i : Instr} {s t : State} (hF : writesF i = false) (h : exec i s = .next t) : t.F = s.F := by
  obtain ⟨k, -, -, hs⟩ | ⟨-, V', R', F', hs, -, -, hkeep⟩ := exec_cases i s
  · obtain ⟨-, rfl⟩ := raise_eq_next (hs.symm.trans h)
    rfl
  · cases hs.symm.trans h
    exact hkeep hF

/-- Settles O50: the two states agree once R and F are cleared, so their answers agree once what the command does
not write is cleared. -/
theorem noCommandReadsResultRegisters : Obligations.NoCommandReadsResultRegisters := by
  intro i s r f
  have hclear : State.clearResults { s with R := r, F := f } = s.clearResults := rfl
  refine ⟨fun t hF h => exec_keeps_F hF h, exec_clearResults_congr hclear, fun hb hR => ?_, fun hb hF => ?_⟩
  · exact clearUnwritten_of_writesR hR ▸ exec_clearUnwritten_congr hclear hb
  · exact clearUnwritten_of_writesF hF ▸ exec_clearUnwritten_congr hclear hb

end Sys2Proof.Machine
end

section
/-! What a command writes, and what a violation writes (10_state.md section 8, 20_memory.md R63). -/

namespace Sys2Proof.Machine

/-- Settles O49: a violation keeps V, R and F and writes the record; a command that breaks nothing keeps the record
and writes what it may. -/
theorem commandsWriteOnlyTheirRegisters : Obligations.CommandsWriteOnlyTheirRegisters := by
  intro i s t h
  obtain ⟨k, hk, -, hs⟩ | ⟨hb, V', R', F', hs, hV, hR, hF⟩ := exec_cases i s
  · obtain ⟨-, rfl⟩ := raise_eq_next (hs.symm.trans h)
    exact ⟨s.V, s.R, s.F, true, k.code, s.port.cmd, rfl, fun _ => rfl, fun _ => rfl, fun _ => rfl,
      fun hn => absurd hk (hn k), fun _ => ⟨rfl, rfl, rfl⟩⟩
  · cases hs.symm.trans h
    exact ⟨V', R', F', s.FAULT, s.CAUSE, s.FCMD, rfl, hV, hR, hF, fun _ => ⟨rfl, rfl, rfl⟩,
      fun ⟨k, hk⟩ => absurd hk (hb k)⟩

end Sys2Proof.Machine
end

section
/-! Commands given twice (20_memory.md R56): a violation records the same again, a command that only reads writes the
same result again, and a command that writes V is compared with its own repetition through the map of V that it
carries out. -/

namespace Sys2Proof.Machine

/-! ### Writing twice in one place -/

theorem writeBit_writeBit {N : Nat} (V : BitVec N) {k : Nat} (b b' : Bool) (hk : k < N) :
    writeBit (writeBit V k b) k b' = writeBit V k b' := by
  apply BitVec.eq_of_getLsbD_eq
  intro j _
  simp only [writeBit_getLsbD _ _ j hk]
  split <;> rfl

theorem writeBit_getLsbD_self {N : Nat} (V : BitVec N) {k : Nat} (hk : k < N) :
    writeBit V k (V.getLsbD k) = V := by
  apply BitVec.eq_of_getLsbD_eq
  intro j _
  rw [writeBit_getLsbD _ _ j hk]
  split
  · next hj => rw [hj]
  · rfl

/-- Inverting a bit twice restores the vector. -/
theorem invertBit_involutive {N k : Nat} (hk : k < N) :
    Function.Involutive fun V : BitVec N => writeBit V k (!V.getLsbD k) := by
  intro V
  have hbit : (writeBit V k (!V.getLsbD k)).getLsbD k = !V.getLsbD k := by
    rw [writeBit_getLsbD _ _ k hk, if_pos rfl]
  simp only [hbit, writeBit_writeBit _ _ _ hk, Bool.not_not, writeBit_getLsbD_self _ hk]

theorem sliceWrite_sliceWrite {N M M' : Nat} (V : BitVec N) (lo width : Nat) (x : BitVec M) (x' : BitVec M') :
    sliceWrite (sliceWrite V lo width x) lo width x' = sliceWrite V lo width x' := by
  apply BitVec.eq_of_getLsbD_eq
  intro j hj
  simp only [sliceWrite_getLsbD _ _ _ _ j hj]
  split <;> rfl

/-- A slice written apart from another leaves what the other reads. -/
theorem memRead_sliceWrite_of_disjoint {N M : Nat} (V : BitVec N) {lo width lo2 width2 : Nat} (x : BitVec M)
    (hbound : lo2 + width2 ≤ N) (hdisj : ∀ k, ¬ (lo ≤ k ∧ k < lo + width ∧ lo2 ≤ k ∧ k < lo2 + width2)) :
    memRead (sliceWrite V lo width x) lo2 width2 = memRead V lo2 width2 := by
  apply BitVec.eq_of_getLsbD_eq
  intro j hj
  have houtside : ¬ (lo ≤ lo2 + j ∧ lo2 + j < lo + width) := fun ⟨h1, h2⟩ =>
    hdisj (lo2 + j) ⟨h1, h2, by omega, by omega⟩
  rw [memRead_getLsbD, memRead_getLsbD, sliceWrite_getLsbD _ _ _ _ _ (by omega), if_neg houtside]

/-! ### Operands within their bounds -/

theorem Denotes.index_lt {N : Nat} {sl : SliceOperand} {lo width n : Nat} (hd : Denotes N sl lo width)
    (hn : n < width) : lo + n < N :=
  (Nat.add_lt_add_left hn lo).trans_le hd.bound

section
variable {i : Instr} {s : State} (hb : ∀ k, ¬ Breaks s.cfg i k)
include hb

theorem exists_denotes_index_of_not_breaks {sl : SliceOperand} {n : Nat} (hsl : sl ∈ sliceOperands i)
    (hn : (sl, n) ∈ sliceIndices i) : ∃ lo width, Denotes s.cfg.N sl lo width ∧ n < width := by
  obtain ⟨lo, width, hd⟩ := exists_denotes_of_not_breaks hb hsl
  exact ⟨lo, width, hd, Nat.not_le.mp fun hle => hb .sliceIndex ⟨(sl, n), hn, lo, width, hd, hle⟩⟩

theorem bitIndex_lt_of_not_breaks {n : Nat} (hn : n ∈ bitIndices i) : n < s.cfg.N :=
  Nat.not_le.mp fun hle => hb .bitIndex ⟨n, hn, hle⟩

theorem portWidth_le_of_not_breaks {w : Nat} (hw : w ∈ portWidths i) : w ≤ s.cfg.DW :=
  Nat.not_lt.mp fun hlt => hb .portWidth ⟨w, hw, hlt⟩

end

/-! ### A command as a map of V -/

/-- From `s` with any vector in V, the command completes, writes `f` of the vector to V, and changes nothing else. -/
def MapsV (i : Instr) (s : State) (f : BitVec s.cfg.N → BitVec s.cfg.N) : Prop :=
  ∀ v, exec i (s.writeV v) = .next (s.writeV (f v))

section
variable {i : Instr} {s t : State} {f : BitVec s.cfg.N → BitVec s.cfg.N} (hf : MapsV i s f) (h : exec i s = .next t)
include hf h

/-- Such a command, given twice, applies its map twice. -/
theorem MapsV.exec_twice : t = s.writeV (f s.V) ∧ exec i t = .next (s.writeV (f (f s.V))) := by
  have hfirst : exec i s = .next (s.writeV (f s.V)) := hf s.V
  cases hfirst.symm.trans h
  exact ⟨rfl, hf (f s.V)⟩

theorem MapsV.exec_repeat (hidem : ∀ v, f (f v) = f v) : exec i t = .next t := by
  obtain ⟨rfl, htwice⟩ := hf.exec_twice h
  rw [htwice, hidem]

theorem MapsV.exec_restores (hinv : Function.Involutive f) : ∃ u, exec i t = .next u ∧ u.V.toNat = s.V.toNat := by
  obtain ⟨rfl, htwice⟩ := hf.exec_twice h
  exact ⟨_, htwice, congrArg BitVec.toNat (hinv s.V)⟩

end

section
variable {s : State}

theorem mapsV_clr : MapsV .clr s fun _ => 0#s.cfg.N := fun _ => rfl

theorem mapsV_load {Ws : Nat} (h : Ws ≤ s.cfg.DW) : MapsV (.load Ws) s fun _ => convert s.cfg.N (s.source Ws) :=
  fun v => needPort_of (s := s.writeV v) h _

theorem mapsV_set {n : Nat} (b : Bool) (h : n < s.cfg.N) : MapsV (.set n b) s fun v => writeBit v n b :=
  fun v => needBit_of (s := s.writeV v) h _

theorem mapsV_reset {n : Nat} (h : n < s.cfg.N) : MapsV (.reset n) s fun v => writeBit v n false :=
  fun v => needBit_of (s := s.writeV v) h _

theorem mapsV_flip {n : Nat} (h : n < s.cfg.N) : MapsV (.flip n) s fun v => writeBit v n (!v.getLsbD n) :=
  fun v => needBit_of (s := s.writeV v) h _

section
variable {sl : SliceOperand} {lo width : Nat} (hd : Denotes s.cfg.N sl lo width)
include hd

theorem mapsV_sset {n : Nat} (b : Bool) (h : n < width) :
    MapsV (.sset sl n b) s fun v => writeBit v (lo + n) b := by
  intro v; unfold exec execSset; exact withSliceBit_of (s := s.writeV v) hd h _

theorem mapsV_sflip {n : Nat} (h : n < width) :
    MapsV (.sflip sl n) s fun v => writeBit v (lo + n) (!v.getLsbD (lo + n)) := by
  intro v; unfold exec execSflip; exact withSliceBit_of (s := s.writeV v) hd h _

theorem mapsV_swr {Ws : Nat} (h : Ws ≤ s.cfg.DW) :
    MapsV (.swr sl Ws) s fun v => sliceWrite v lo width (s.source Ws) := fun v =>
  (withSlice_of (s := s.writeV v) hd _).trans (needPort_of (s := s.writeV v) h _)

theorem mapsV_swri : MapsV (.swri sl) s fun v => sliceWrite v lo width s.scalar := fun v =>
  withSlice_of (s := s.writeV v) hd _

theorem mapsV_swrs {src : SliceOperand} {lo2 width2 : Nat} (hr : Denotes s.cfg.N src lo2 width2) :
    MapsV (.swrs sl src) s fun v => sliceWrite v lo width (memRead v lo2 width2) := fun v =>
  (withSlice_of (s := s.writeV v) hd _).trans (withSlice_of (s := s.writeV v) hr _)

end

end

/-! ### Commands given twice -/

/-- A violation records the same cause and word when the command is given again, and keeps V. -/
theorem exec_repeat_of_breaks {i : Instr} {s t : State} (hb : ∃ k, Breaks s.cfg i k) (h : exec i s = .next t) :
    exec i t = .next t ∧ t.V.toNat = s.V.toNat := by
  obtain ⟨V', R', F', FAULT', CAUSE', FCMD', ht, -⟩ := commandsWriteOnlyTheirRegisters i s t h
  have hc : t.cfg = s.cfg := ht ▸ rfl
  obtain ⟨k, hs, hs'⟩ := exec_raise_of_breaks hc hb
  obtain ⟨hchecked, rfl⟩ := raise_eq_next (hs.symm.trans h)
  exact ⟨by rw [hs', raise_eq, if_pos hchecked]; rfl, rfl⟩

/-- Two states that differ in R and F alone are equal when they agree on what the command writes and on the rest. -/
theorem eq_of_clearUnwritten_eq {i : Instr} {s : State} {R R' : BitVec s.cfg.DW} {F F' : Bool}
    (h : State.clearUnwritten i { s with R := R, F := F } = State.clearUnwritten i { s with R := R', F := F' })
    (hR : writesR i = false → R = R') (hF : writesF i = false → F = F') : R = R' ∧ F = F' := by
  simp only [State.clearUnwritten, State.mk.injEq, heq_eq_eq, true_and, and_true] at h
  obtain ⟨hwR, hwF⟩ := h
  constructor
  · cases hw : writesR i
    · exact hR hw
    · simpa only [hw, if_true] using hwR
  · cases hw : writesF i
    · exact hF hw
    · simpa only [hw, if_true] using hwF

/-- A command that does not write V writes only R or F, and the same again when it is given again: what it writes does
not depend on R and F. -/
theorem exec_repeat_of_not_writesV {i : Instr} {s t : State} (hV : writesV i = false) (hb : ∀ k, ¬ Breaks s.cfg i k)
    (h : exec i s = .next t) :
    exec i t = .next t ∧ ∃ (R' : BitVec s.cfg.DW) (F' : Bool), t = { s with R := R', F := F' } := by
  obtain ⟨k, hk, -⟩ | ⟨-, V', R', F', hs, hkeepV, -⟩ := exec_cases i s
  · exact absurd hk (hb k)
  cases hs.symm.trans h
  cases hkeepV hV
  obtain ⟨k, hk, -⟩ | ⟨-, V'', R'', F'', ht, hkeepV', hkeepR', hkeepF'⟩ := exec_cases i { s with R := R', F := F' }
  · exact absurd hk (hb k)
  cases hkeepV' hV
  have hsame : mapNext (State.clearUnwritten i) (exec i { s with R := R', F := F' }) =
      mapNext (State.clearUnwritten i) (exec i s) := exec_clearUnwritten_congr rfl hb
  rw [hs, ht] at hsame
  obtain ⟨hR, hF⟩ := eq_of_clearUnwritten_eq (Host.Outcome.next.inj hsame) hkeepR' hkeepF'
  exact ⟨ht.trans (by rw [hR, hF]), R', F', rfl⟩

/-- The commands R56 calls idempotent whatever their operands. -/
theorem exists_mapsV_idempotent {i : Instr} {s : State} (hb : ∀ k, ¬ Breaks s.cfg i k)
    (hi : ∃ Ws k b sl, i = .clr ∨ i = .load Ws ∨ i = .set k b ∨ i = .reset k ∨ i = .sset sl k b ∨ i = .swr sl Ws ∨
      i = .swri sl) : ∃ f, MapsV i s f ∧ ∀ v, f (f v) = f v := by
  obtain ⟨Ws, k, b, sl, rfl | rfl | rfl | rfl | rfl | rfl | rfl⟩ := hi
  · exact ⟨_, mapsV_clr, fun _ => rfl⟩
  · exact ⟨_, mapsV_load (portWidth_le_of_not_breaks hb (.head _)), fun _ => rfl⟩
  · have hk : k < s.cfg.N := bitIndex_lt_of_not_breaks hb (.head _)
    exact ⟨_, mapsV_set b hk, fun v => writeBit_writeBit v b b hk⟩
  · have hk : k < s.cfg.N := bitIndex_lt_of_not_breaks hb (.head _)
    exact ⟨_, mapsV_reset hk, fun v => writeBit_writeBit v false false hk⟩
  · obtain ⟨lo, width, hd, hk⟩ := exists_denotes_index_of_not_breaks hb (.head _) (.head _)
    exact ⟨_, mapsV_sset hd b hk, fun v => writeBit_writeBit v b b (hd.index_lt hk)⟩
  · obtain ⟨lo, width, hd⟩ := exists_denotes_of_not_breaks hb (.head _)
    exact ⟨_, mapsV_swr hd (portWidth_le_of_not_breaks hb (.head _)), fun v => sliceWrite_sliceWrite v lo width _ _⟩
  · obtain ⟨lo, width, hd⟩ := exists_denotes_of_not_breaks hb (.head _)
    exact ⟨_, mapsV_swri hd, fun v => sliceWrite_sliceWrite v lo width _ _⟩

/-- FLIP and SFLIP invert one bit of V, so given twice they restore it. -/
theorem exists_mapsV_involutive {i : Instr} {s : State} (hb : ∀ k, ¬ Breaks s.cfg i k)
    (hi : ∃ k sl, i = .flip k ∨ i = .sflip sl k) : ∃ f, MapsV i s f ∧ Function.Involutive f := by
  obtain ⟨k, sl, rfl | rfl⟩ := hi
  · have hk : k < s.cfg.N := bitIndex_lt_of_not_breaks hb (.head _)
    exact ⟨_, mapsV_flip hk, invertBit_involutive hk⟩
  · obtain ⟨lo, width, hd, hk⟩ := exists_denotes_index_of_not_breaks hb (.head _) (.head _)
    exact ⟨_, mapsV_sflip hd hk, invertBit_involutive (hd.index_lt hk)⟩

/-- SWRS between disjoint slices leaves its source, so the second copy writes what the first wrote. -/
theorem exec_swrs_repeat_of_disjoint {dst src : SliceOperand} {s t : State} {lo width lo2 width2 : Nat}
    (hd : Denotes s.cfg.N dst lo width) (hr : Denotes s.cfg.N src lo2 width2)
    (hdisj : ∀ k, ¬ (lo ≤ k ∧ k < lo + width ∧ lo2 ≤ k ∧ k < lo2 + width2)) (h : exec (.swrs dst src) s = .next t) :
    exec (.swrs dst src) t = .next t := by
  refine (mapsV_swrs hd hr).exec_repeat h fun v => ?_
  simp only [memRead_sliceWrite_of_disjoint v _ hr.bound hdisj, sliceWrite_sliceWrite]

/-- Copying bits `[1:0]` up by one, twice, carries bit 0 one place further the second time. -/
theorem exists_swrs_not_idempotent : ∃ (dst src : SliceOperand) (s t u : State), exec (.swrs dst src) s = .next t ∧
    exec (.swrs dst src) t = .next u ∧ u.V.toNat ≠ t.V.toNat :=
  ⟨.loWidth 1 2, .loWidth 0 2, State.reset.writeV 1#128, State.reset.writeV 3#128, State.reset.writeV 7#128,
    rfl, rfl, by decide⟩

theorem writesV_eq_false_of_onlyReadsV {i : Instr} (h : onlyReadsV i = true) : writesV i = false := by
  cases i with
  | readv | test | any | all | none | count | eq | sget | srd => rfl
  | _ => cases h

/-- Settles O52: where the command breaks a precondition its violation repeats; where it breaks none, each list of
R56 has its own reason. -/
theorem repeatedCommands : Obligations.RepeatedCommands := by
  refine ⟨fun i s t h => ?_, exists_swrs_not_idempotent⟩
  by_cases hb : ∃ k, Breaks s.cfg i k
  · obtain ⟨hrepeat, hV⟩ := exec_repeat_of_breaks hb h
    exact ⟨fun _ => ⟨hV, hrepeat, fun hn => absurd hb (not_exists.mpr hn)⟩, fun _ => hrepeat,
      fun _ _ _ _ _ _ _ _ _ _ => hrepeat, fun _ => ⟨t, hrepeat, hV⟩⟩
  · have hb' := not_exists.mp hb
    refine ⟨fun hi => ?_, fun hi => ?_, fun dst src lo width lo2 width2 hi hd hr hdisj => ?_, fun hi => ?_⟩
    · obtain ⟨hrepeat, R', F', rfl⟩ := exec_repeat_of_not_writesV (writesV_eq_false_of_onlyReadsV hi) hb' h
      exact ⟨rfl, hrepeat, fun _ => ⟨R', F', rfl⟩⟩
    · obtain ⟨f, hf, hidem⟩ := exists_mapsV_idempotent hb' hi
      exact hf.exec_repeat h hidem
    · subst hi
      exact exec_swrs_repeat_of_disjoint hd hr hdisj h
    · obtain ⟨f, hf, hinv⟩ := exists_mapsV_involutive hb' hi
      exact hf.exec_restores h hinv

end Sys2Proof.Machine
end

section
/-! The fields of a command word by its bit numbers, and the worked encodings (30_encoding.md R70, R71, R83). -/

namespace Sys2Proof

/-- Every index, bound and width up to N and DW fits an operand field (R71). -/
theorem Config.lt_two_pow_FW (c : Config) {x : Nat} (hx : x ≤ max c.N c.DW) : x < 2 ^ c.FW := by
  have hpos : 0 < 2 ^ c.FW := Nat.two_pow_pos c.FW
  have hmax : max c.N c.DW ≤ 2 ^ c.FW - 1 := c.FW_ge
  omega

/-- Settles O1: each field is an extract of the word, and VB is one of its bits. -/
theorem fieldsStandAtTheirBitNumbers : Obligations.FieldsStandAtTheirBitNumbers := by
  intro c w
  have hOP : (Fields.ofWord c w).OP.toNat = w.toNat % 2 ^ 8 :=
    (Fields.extract_toNat w 0 8).trans (by rw [pow_zero, Nat.div_one])
  exact ⟨hOP, Fields.extract_toNat w 8 2, Fields.extract_toNat w 10 2, Nat.toNat_testBit w.toNat 12,
    Fields.extract_toNat w 13 3, Fields.extract_toNat .., Fields.extract_toNat .., Fields.extract_toNat ..,
    Fields.extract_toNat .., rfl, fun _ => c.lt_two_pow_FW⟩

/-- Settles O6: ten closed words, each run through the decoder. -/
theorem workedEncodingsDecode : Obligations.WorkedEncodingsDecode := by
  refine ⟨?_, ?_, ?_, ?_, ?_, ?_, ?_, ?_, ?_, ?_⟩ <;> decide

end Sys2Proof
end

section
/-! The rows of the header match and mask table (30_encoding.md R74) against the decoder: for a word with the opcode
of a row, the fields are legal for the row's format just when the row selects the word, and just when the word decodes
to the row's command. -/

namespace Sys2Proof

/-- The opcode of a row: the low byte of its match. -/
def HeaderRow.opcode (r : HeaderRow) : Opcode := r.hmatch.setWidth 8

theorem headerTable_opcodes_nodup : (headerTable.map HeaderRow.opcode).Nodup := by decide

theorem headerTable_nodup : headerTable.Nodup := headerTable_opcodes_nodup.of_map _

/-- The row of an opcode is the only one. -/
theorem HeaderRow.eq_of_opcode_eq {r r' : HeaderRow} (hr : r ∈ headerTable) (hr' : r' ∈ headerTable)
    (h : r.opcode = r'.opcode) : r = r' :=
  List.inj_on_of_nodup_map headerTable_opcodes_nodup hr hr' h

/-! ### Fields that are legal for a format -/

/-- What R74 asks of a word beside its opcode: the reserved bits and the fields its format marks 0 are 0, and neither
mode is 3. -/
structure Fields.Legal (f : Fields) (fmt : Format) : Prop where
  reserved : f.RSV = 0#3
  unused : f.unusedZero fmt = true
  primaryMode : f.MD ≠ 3#2
  sourceMode : f.MS ≠ 3#2

theorem Fields.unusedZero_iff (f : Fields) (fmt : Format) :
    f.unusedZero fmt = true ↔
      (fmt.MD = true ∨ f.MD = 0#2) ∧ (fmt.MS = true ∨ f.MS = 0#2) ∧ (fmt.VB = true ∨ f.VB = false) ∧
      (fmt.A = true ∨ f.A = 0) ∧ (fmt.B = true ∨ f.B = 0) ∧ (fmt.C = true ∨ f.C = 0) ∧
      (fmt.D = true ∨ f.D = 0) := by
  simp [unusedZero, and_assoc]

/-- A mode that the format does not have is 0, and so not 3. -/
theorem modeField_ne_three_of_unused {m : ModeField} {free : Bool} (h : free = true ∨ m = 0#2) (hfree : free = false) :
    m ≠ 3#2 := by
  revert m free; decide

theorem Fields.MD_ne_three_of_unusedZero {f : Fields} {fmt : Format} (h : f.unusedZero fmt = true)
    (hfmt : fmt.MD = false) : f.MD ≠ 3#2 :=
  modeField_ne_three_of_unused ((f.unusedZero_iff fmt).mp h).1 hfmt

theorem Fields.MS_ne_three_of_unusedZero {f : Fields} {fmt : Format} (h : f.unusedZero fmt = true)
    (hfmt : fmt.MS = false) : f.MS ≠ 3#2 :=
  modeField_ne_three_of_unused ((f.unusedZero_iff fmt).mp h).2.1 hfmt

theorem SliceOperand.mode_ne_three_of_ofFields {m : ModeField} {f1 f2 : Nat} {sl : SliceOperand}
    (h : SliceOperand.ofFields m f1 f2 = some sl) : m ≠ 3#2 := by
  intro hm
  rw [SliceOperand.ofFields_eq_none.mpr hm] at h
  cases h

/-! ### What the decoder answers for the opcode of a row -/

/-- The answer is a command with the mnemonic `m` where the fields are legal for the format, and an error where they
are not. -/
def Fields.Answers (f : Fields) (fmt : Format) (m : String) (x : Except DecodeError Instr) : Prop :=
  (f.Legal fmt ∧ ∃ i, x = .ok i ∧ i.mnemonic = m) ∨ (¬ f.Legal fmt ∧ ∃ e, x = .error e)

namespace Fields

section
variable {f : Fields} {fmt : Format} {m : String} (hRSV : f.RSV = 0#3)
include hRSV

theorem plain_answers {i : Instr} (hMD : fmt.MD = false) (hMS : fmt.MS = false) (hm : i.mnemonic = m) :
    f.Answers fmt m (f.plain fmt i) := by
  unfold plain
  split
  · next h =>
    exact .inl ⟨⟨hRSV, h, MD_ne_three_of_unusedZero h hMD, MS_ne_three_of_unusedZero h hMS⟩, i, rfl, hm⟩
  · next h => exact .inr ⟨fun hl => h hl.unused, _, rfl⟩

theorem sliced_answers {mk : SliceOperand → Instr} (hMS : fmt.MS = false) (hm : ∀ sl, (mk sl).mnemonic = m) :
    f.Answers fmt m (f.sliced fmt mk) := by
  unfold sliced
  split
  · next h =>
    cases hsl : SliceOperand.ofFields f.MD f.A f.B with
    | none => exact .inr ⟨fun hl => hl.primaryMode (SliceOperand.ofFields_eq_none.mp hsl), _, rfl⟩
    | some sl =>
      exact .inl ⟨⟨hRSV, h, SliceOperand.mode_ne_three_of_ofFields hsl, MS_ne_three_of_unusedZero h hMS⟩,
        mk sl, rfl, hm sl⟩
  · next h => exact .inr ⟨fun hl => h hl.unused, _, rfl⟩

theorem sliced2_answers {mk : SliceOperand → SliceOperand → Instr} (hm : ∀ dst src, (mk dst src).mnemonic = m) :
    f.Answers fmt m (f.sliced2 fmt mk) := by
  unfold sliced2
  split
  · next h =>
    cases hdst : SliceOperand.ofFields f.MD f.A f.B with
    | none => exact .inr ⟨fun hl => hl.primaryMode (SliceOperand.ofFields_eq_none.mp hdst), _, rfl⟩
    | some dst =>
      cases hsrc : SliceOperand.ofFields f.MS f.C f.D with
      | none => exact .inr ⟨fun hl => hl.sourceMode (SliceOperand.ofFields_eq_none.mp hsrc), _, rfl⟩
      | some src =>
        exact .inl ⟨⟨hRSV, h, SliceOperand.mode_ne_three_of_ofFields hdst,
          SliceOperand.mode_ne_three_of_ofFields hsrc⟩, mk dst src, rfl, hm dst src⟩
  · next h => exact .inr ⟨fun hl => h hl.unused, _, rfl⟩

end

end Fields

theorem decodeFields_of_reserved {f : Fields} (h : f.RSV ≠ 0#3) : decodeFields f = .error .reservedBits := if_pos h

/-- An opcode of no row is unassigned (R75). -/
theorem decodeFields_of_unassigned {f : Fields} (h : f.OP.toNat ∉ headerTable.map (·.opcode.toNat)) :
    ∃ e, decodeFields f = .error e := by
  unfold decodeFields
  split
  · exact ⟨_, rfl⟩
  · split
    case h_22 => exact ⟨_, rfl⟩
    all_goals next hop => exact absurd (by rw [hop]; decide) h

/-- The decoder on the opcode of a row (R72 to R77): 14 rows without slice operands, 6 with one, and SWRS with two. -/
theorem decodeFields_answers {f : Fields} {r : HeaderRow} (hr : r ∈ headerTable) (hop : f.OP = r.opcode) :
    f.Answers r.format r.mnemonic (decodeFields f) := by
  by_cases hRSV : f.RSV = 0#3
  · obtain ⟨OP, MD, MS, VB, RSV, A, B, C, D⟩ := f
    subst hRSV hop
    simp only [headerTable, List.cons_append, List.nil_append, List.mem_cons, List.not_mem_nil, or_false] at hr
    rcases hr with rfl | rfl | rfl | rfl | rfl | rfl | rfl | rfl | rfl | rfl | rfl | rfl | rfl | rfl |
      rfl | rfl | rfl | rfl | rfl | rfl | rfl
    iterate 14 exact Fields.plain_answers rfl rfl rfl rfl
    iterate 6 exact Fields.sliced_answers rfl rfl fun _ => rfl
    exact Fields.sliced2_answers rfl fun _ _ => rfl
  · exact .inr ⟨fun hl => hRSV hl.reserved, _, decodeFields_of_reserved hRSV⟩

/-- Fields that are not legal for the row of their opcode are no command (R76, R77). -/
theorem decodeFields_of_not_legal {f : Fields} {r : HeaderRow} (hr : r ∈ headerTable) (hop : f.OP = r.opcode)
    (h : ¬ f.Legal r.format) : ∃ e, decodeFields f = .error e := by
  obtain ⟨hl, -⟩ | ⟨-, he⟩ := decodeFields_answers hr hop
  · exact absurd hl h
  · exact he

/-- What decodes has the opcode of a row, is legal for its format, and is its command. -/
theorem exists_row_of_decodeFields {f : Fields} {i : Instr} (h : decodeFields f = .ok i) :
    ∃ r ∈ headerTable, f.OP = r.opcode ∧ f.Legal r.format ∧ i.mnemonic = r.mnemonic := by
  have noError : ¬ ∃ e, decodeFields f = .error e := by rw [h]; rintro ⟨e, he⟩; cases he
  have hmem : f.OP.toNat ∈ headerTable.map (·.opcode.toNat) :=
    by_contra fun hn => noError (decodeFields_of_unassigned hn)
  obtain ⟨r, hr, hop⟩ := List.mem_map.mp hmem
  have hop' : f.OP = r.opcode := BitVec.eq_of_toNat_eq hop.symm
  obtain ⟨hl, j, hj, hm⟩ | ⟨-, he⟩ := decodeFields_answers hr hop'
  · cases h.symm.trans hj
    exact ⟨r, hr, hop', hl, hm⟩
  · exact absurd he noError

/-! ### What the masks of the table select -/

theorem Fields.header_and (f g : Fields) :
    f.header &&& g.header =
      header { OP := f.OP &&& g.OP, MD := f.MD &&& g.MD, MS := f.MS &&& g.MS, VB := f.VB && g.VB,
               RSV := f.RSV &&& g.RSV } := by
  simp only [header, ← BitVec.ofBool_and_ofBool, ← BitVec.and_append]

theorem Fields.header_eq_iff (f g : Fields) :
    f.header = g.header ↔ f.OP = g.OP ∧ f.MD = g.MD ∧ f.MS = g.MS ∧ f.VB = g.VB ∧ f.RSV = g.RSV := by
  constructor
  · intro h
    obtain ⟨hOP, hMD, hMS, hVB, hRSV⟩ := f.header_fields
    obtain ⟨hOP', hMD', hMS', hVB', hRSV'⟩ := g.header_fields
    exact ⟨by rw [← hOP, h, hOP'], by rw [← hMD, h, hMD'], by rw [← hMS, h, hMS'], by rw [← hVB, h, hVB'],
      by rw [← hRSV, h, hRSV']⟩
  · rintro ⟨hOP, hMD, hMS, hVB, hRSV⟩
    simp only [header, *]

theorem Fields.setWidth_eq_header (c : Config) (w : BitVec c.CW) : w.setWidth 16 = (ofWord c w).header := by
  rw [← toWord_header c, toWord_ofWord]

/-- The header bits that a format fixes, as the fields of a mask (R74). -/
def Format.headerMask (fmt : Format) : Fields where
  OP := 0xFF#8
  MD := if fmt.MD then 0#2 else 3#2
  MS := if fmt.MS then 0#2 else 3#2
  VB := !fmt.VB
  RSV := 7#3

/-- Every row masks what its format fixes, and asks for its opcode there and for 0 elsewhere. -/
theorem headerTable_masks : ∀ r ∈ headerTable,
    r.hmask = r.format.headerMask.header ∧ r.hmatch = Fields.header { OP := r.opcode } := by decide

theorem modeField_and_mask (m : ModeField) (free : Bool) :
    m &&& (if free then 0#2 else 3#2) = 0#2 ↔ free = true ∨ m = 0#2 := by
  revert m free; decide

theorem HeaderRow.matches_iff {r : HeaderRow} (hr : r ∈ headerTable) (f : Fields) :
    f.header &&& r.hmask = r.hmatch ↔
      f.OP = r.opcode ∧ (r.format.MD = true ∨ f.MD = 0#2) ∧ (r.format.MS = true ∨ f.MS = 0#2) ∧
      (r.format.VB = true ∨ f.VB = false) ∧ f.RSV = 0#3 := by
  obtain ⟨hmask, hmatch⟩ := headerTable_masks r hr
  have hOP : f.OP &&& 0xFF#8 = f.OP := BitVec.and_allOnes
  have hRSV : f.RSV &&& 7#3 = f.RSV := BitVec.and_allOnes
  have hVB : (f.VB && !r.format.VB) = false ↔ r.format.VB = true ∨ f.VB = false := by
    cases f.VB <;> cases r.format.VB <;> decide
  rw [hmask, hmatch, Fields.header_and, Fields.header_eq_iff]
  simp only [Format.headerMask, hOP, hRSV, hVB, modeField_and_mask]

theorem Fields.header_and_MD (f : Fields) : f.header &&& 0x0300#16 = 0x0300#16 ↔ f.MD = 3#2 := by
  have hmask : 0x0300#16 = header { OP := 0#8, MD := 3#2 } := by decide
  have hMD : f.MD &&& 3#2 = f.MD := BitVec.and_allOnes
  rw [hmask, header_and, header_eq_iff]
  simp [hMD]

theorem Fields.header_and_MS (f : Fields) : f.header &&& 0x0C00#16 = 0x0C00#16 ↔ f.MS = 3#2 := by
  have hmask : 0x0C00#16 = header { OP := 0#8, MS := 3#2 } := by decide
  have hMS : f.MS &&& 3#2 = f.MS := BitVec.and_allOnes
  rw [hmask, header_and, header_eq_iff]
  simp [hMS]

/-- A row selects the words of its opcode with fields that are legal for its format. -/
theorem HeaderRow.selects_iff {r : HeaderRow} (hr : r ∈ headerTable) (c : Config) (w : BitVec c.CW) :
    r.selects c w = true ↔ (Fields.ofWord c w).OP = r.opcode ∧ (Fields.ofWord c w).Legal r.format := by
  have hzero (start : Nat) : w.extractLsb' start c.FW = 0#c.FW ↔ (w.extractLsb' start c.FW).toNat = 0 :=
    BitVec.toNat_inj.symm
  simp only [selects, Bool.and_eq_true, Bool.or_eq_true, beq_iff_eq, bne_iff_ne, Fields.setWidth_eq_header,
    matches_iff hr, ne_eq, Fields.header_and_MD, Fields.header_and_MS, hzero]
  constructor
  · rintro ⟨⟨⟨⟨⟨⟨⟨hOP, hMD, hMS, hVB, hRSV⟩, hMD3⟩, hMS3⟩, hA⟩, hB⟩, hC⟩, hD⟩
    exact ⟨hOP, hRSV, (Fields.unusedZero_iff ..).mpr ⟨hMD, hMS, hVB, hA, hB, hC, hD⟩, hMD3, hMS3⟩
  · rintro ⟨hOP, hRSV, hunused, hMD3, hMS3⟩
    obtain ⟨hMD, hMS, hVB, hA, hB, hC, hD⟩ := (Fields.unusedZero_iff ..).mp hunused
    exact ⟨⟨⟨⟨⟨⟨⟨hOP, hMD, hMS, hVB, hRSV⟩, hMD3⟩, hMS3⟩, hA⟩, hB⟩, hC⟩, hD⟩

/-- The table selects by one row alone, since no two rows have one opcode. -/
theorem headerTable_filter_selects {c : Config} {w : BitVec c.CW} {r : HeaderRow} (hr : r ∈ headerTable)
    (h : r.selects c w = true) : headerTable.filter (·.selects c w) = [r] := by
  have honly : ∀ r' ∈ headerTable, r'.selects c w = decide (r' = r) := by
    intro r' hr'
    rw [Bool.eq_iff_iff, decide_eq_true_iff]
    constructor
    · intro h'
      obtain ⟨hop, -⟩ := (HeaderRow.selects_iff hr c w).mp h
      obtain ⟨hop', -⟩ := (HeaderRow.selects_iff hr' c w).mp h'
      exact HeaderRow.eq_of_opcode_eq hr' hr (hop'.symm.trans hop)
    · rintro rfl
      exact h
  rw [List.filter_congr honly, List.filter_eq, List.count_eq_one_of_mem headerTable_nodup hr, List.replicate_one]

/-- Settles O4: a row selects a word just when the word has the row's opcode and fields legal for it, which is when
the word decodes to the row's command. -/
theorem headerTableSelectsTheCommand : Obligations.HeaderTableSelectsTheCommand := by
  intro c w
  constructor
  · intro i hi
    obtain ⟨r, hr, hop, hl, hm⟩ := exists_row_of_decodeFields hi
    rw [headerTable_filter_selects hr ((HeaderRow.selects_iff hr c w).mpr ⟨hop, hl⟩), hm, List.map_singleton]
  · intro e he
    refine List.filter_eq_nil_iff.mpr fun r hr hsel => ?_
    obtain ⟨hop, hl⟩ := (HeaderRow.selects_iff hr c w).mp hsel
    obtain ⟨-, i, hi, -⟩ | ⟨hn, -⟩ := decodeFields_answers hr hop
    · cases hi.symm.trans he
    · exact hn hl

end Sys2Proof
end

section
/-! Illegal command words (30_encoding.md R75 to R77). -/

namespace Sys2Proof.Machine

/-- Settles O5: each clause is a way not to be legal for the row of the opcode, or to have no row. -/
theorem illegalWordsRaiseIllegalEncoding : Obligations.IllegalWordsRaiseIllegalEncoding := by
  refine ⟨fun c w => ⟨decodeFields_of_unassigned, fun hRSV => ⟨_, decodeFields_of_reserved hRSV⟩,
    fun r hr hop hfield => decodeFields_of_not_legal hr hop fun hl => ?_,
    fun r hr hop hmode => decodeFields_of_not_legal hr hop fun hl => ?_⟩, fun s e hrst hvalid hready he => ?_⟩
  · obtain ⟨hMD, hMS, hVB, hA, hB, hC, hD⟩ := (Fields.unusedZero_iff ..).mp hl.unused
    obtain ⟨hfmt, h⟩ | ⟨hfmt, h⟩ | ⟨hfmt, h⟩ | ⟨hfmt, h⟩ | ⟨hfmt, h⟩ | ⟨hfmt, h⟩ | ⟨hfmt, h⟩ := hfield <;>
      simp_all
  · obtain ⟨-, hMD⟩ | ⟨-, hMS⟩ := hmode
    · exact hl.primaryMode hMD
    · exact hl.sourceMode hMS
  · rw [step_of_accepted hrst hvalid hready, runCommand, he]

end Sys2Proof.Machine
end

section
/-! The effects of the pseudo-instructions (30_encoding.md R82): their expansions within their bounds. -/

namespace Sys2Proof.Machine

theorem scalarWidth_le_DW (c : Config) : scalarWidth ≤ c.DW := (le_max_right c.N 64).trans c.DW_ge

theorem exec_readv_of {s : State} {Wd : Nat} (h : Wd ≤ s.cfg.DW) :
    exec (.readv Wd) s = .next (s.writeR (convert Wd s.V)) := needPort_of h _

theorem exec_conv_of {s : State} {Ws Wd : Nat} (hs : Ws ≤ s.cfg.DW) (hd : Wd ≤ s.cfg.DW) :
    exec (.conv Ws Wd) s = .next (s.writeR (convert Wd (s.source Ws))) :=
  (needPort_of hs _).trans (needPort_of hd _)

/-- A source of no bits clears the slice. -/
theorem sliceWrite_zero_getLsbD {N : Nat} (V : BitVec N) {lo width : Nat} (x : BitVec 0) (k : Nat) :
    (sliceWrite V lo width x).getLsbD k = (decide (k < lo ∨ lo + width ≤ k) && V.getLsbD k) := by
  by_cases hk : k < N
  · rw [sliceWrite_getLsbD V lo width x k hk]
    by_cases hin : lo ≤ k ∧ k < lo + width
    · have hout : ¬ (k < lo ∨ lo + width ≤ k) := by omega
      rw [if_pos hin, decide_eq_false hout, Bool.false_and, BitVec.getLsbD_of_ge x _ (Nat.zero_le _)]
    · have hout : k < lo ∨ lo + width ≤ k := by omega
      rw [if_neg hin, decide_eq_true hout, Bool.true_and]
  · rw [BitVec.getLsbD_of_ge _ k (Nat.not_lt.mp hk), BitVec.getLsbD_of_ge V k (Nat.not_lt.mp hk), Bool.and_false]

/-- Settles O53: the expansions are the definition's rows, and each effect is that of the expanded command. -/
theorem pseudoInstructionsExpand : Obligations.PseudoInstructionsExpand := by
  refine ⟨fun i sl Ws => ⟨rfl, rfl, rfl, rfl, rfl, rfl⟩, fun s => ⟨?ldsc, ?rdsc, ?szero, ?copyv⟩⟩
  case ldsc =>
    refine ⟨_, mapsV_load (scalarWidth_le_DW s.cfg) s.V, fun k hk => ?_⟩
    rw [State.source, convert_getLsbD, convert_getLsbD, decide_eq_true hk, Bool.true_and]
  case rdsc =>
    refine ⟨_, exec_readv_of (scalarWidth_le_DW s.cfg), ?_⟩
    rw [convert_toNat_of_le (scalarWidth_le_DW s.cfg), convert_toNat]
  case szero =>
    intro sl lo width hd
    exact ⟨_, mapsV_swr hd (Nat.zero_le _) s.V, sliceWrite_zero_getLsbD s.V (s.source 0)⟩
  case copyv =>
    intro Ws hW
    refine ⟨_, exec_conv_of hW hW, ?_⟩
    rw [State.source, convert_self, convert_toNat_of_le hW, convert_toNat]

end Sys2Proof.Machine
end

section
/-! The mask value and the algorithm that builds it (40_mask.md R101, R102), in terms of its bits: ones below `w`. -/

namespace Sys2Proof.Machine

theorem maskBits_getLsbD_of_le {D w : Nat} (h : w ≤ D) (j : Nat) : (maskBits D w).getLsbD j = decide (j < w) := by
  rw [maskBits_getLsbD, ← Bool.decide_and, decide_eq_decide]
  omega

theorem eq_maskBits {D w : Nat} {x : BitVec D} (h : ∀ j, x.getLsbD j = decide (j < w)) : x = maskBits D w := by
  refine BitVec.eq_of_getLsbD_eq fun j hj => ?_
  rw [h, maskBits_getLsbD, decide_eq_true hj, Bool.true_and]

/-- The width a mask was built in does not show in another width, as long as no one bit fell out of it. -/
theorem convert_maskBits {K w : Nat} (D : Nat) (h : w ≤ K) : convert D (maskBits K w) = maskBits D w := by
  refine BitVec.eq_of_getLsbD_eq fun j _ => ?_
  rw [convert_getLsbD, maskBits_getLsbD_of_le h, maskBits_getLsbD]

/-- The positions below `K` are the `w` positions of the ones and then those of the zeros. -/
theorem popcount_maskBits {K w : Nat} (h : w ≤ K) : popcount (maskBits K w) = w := by
  obtain ⟨d, rfl⟩ := Nat.exists_eq_add_of_le h
  have hones : (List.range w).countP (maskBits (w + d) w).getLsbD = (List.range w).length :=
    List.countP_eq_length.mpr fun j hj =>
      (maskBits_getLsbD_of_le h j).trans (decide_eq_true (List.mem_range.mp hj))
  have hzeros : ((List.range d).map (w + ·)).countP (maskBits (w + d) w).getLsbD = 0 := by
    refine List.countP_eq_zero.mpr fun j hj => ?_
    obtain ⟨n, -, rfl⟩ := List.mem_map.mp hj
    rw [maskBits_getLsbD_of_le h, decide_eq_true_iff]
    omega
  rw [popcount, List.range_add, List.countP_append, hones, hzeros, List.length_range, Nat.add_zero]

/-- The scalar of the fast path (R101). -/
theorem shiftLeft_one_sub_one (w : Nat) : (1#64 <<< w) - 1#64 = maskBits 64 w := by
  have hpow : 1#64 <<< w = BitVec.ofNat 64 (2 ^ w) := by
    rw [← BitVec.twoPow_eq]
    exact BitVec.eq_of_toNat_eq (BitVec.toNat_twoPow 64 w)
  rw [hpow, BitVec.ofNat_sub_ofNat_of_le _ _ (by decide) Nat.one_le_two_pow, maskBits]

/-- R102, fast path: one word holds the mask. Slow path: the loop starts with the low 64 ones of `w`. -/
theorem buildMask_eq_maskBits {K w : Nat} (h : w ≤ K) : buildMask K w = maskBits K w := by
  rw [buildMask]
  split
  · next hfast => rw [shiftLeft_one_sub_one, convert_maskBits K hfast.le]
  · next hslow =>
    refine eq_maskBits (maskDoubling_getLsbD w h w 64 _ (by decide) (Nat.le_add_right w 64) fun j => ?_)
    rw [convert_getLsbD, BitVec.getLsbD_allOnes, ← Bool.decide_and, decide_eq_decide]
    omega

/-- Settles O24: the algorithm's value is the mask, whose value, number of ones and bits are known. -/
theorem maskAlgorithmGivesMask : Obligations.MaskAlgorithmGivesMask := by
  intro K w h
  rw [buildMask_eq_maskBits h]
  exact ⟨rfl, maskBits_toNat h, popcount_maskBits h, maskBits_getLsbD_of_le h⟩

end Sys2Proof.Machine
end

section
/-! The command MASK (40_mask.md R100): its word, its two checks, and the value it writes. -/

namespace Sys2Proof.Machine

/-- A word with a 16-bit header and operands that fit decodes as the fields it was made of. -/
theorem decode_wordOf (c : Config) {h A B C D : Nat} (hh : h < 2 ^ 16) (hA : A < 2 ^ c.FW) (hB : B < 2 ^ c.FW)
    (hC : C < 2 ^ c.FW) (hD : D < 2 ^ c.FW) :
    decode c (wordOf c h A B C D) = decodeFields
      { OP := BitVec.ofNat 8 h, MD := BitVec.ofNat 2 (h / 2 ^ 8), MS := BitVec.ofNat 2 (h / 2 ^ 10),
        VB := h.testBit 12, RSV := BitVec.ofNat 3 (h / 2 ^ 13), A := A, B := B, C := C, D := D } :=
  congrArg decodeFields (Fields.ofWord_wordOf c hh hA hB hC hD)

theorem exec_mask_eq_raise_portWidth {s : State} {K w : Nat} (h : s.cfg.DW < K) :
    exec (.mask K w) s = raise .portWidth s :=
  needPort_of_not h _

theorem exec_mask_eq_raise_maskWidth {s : State} {K w : Nat} (hK : K ≤ s.cfg.DW) (h : K < w) :
    exec (.mask K w) s = raise .maskWidth s :=
  (needPort_of hK _).trans (require_of_not (decide_eq_false (Nat.not_le.mpr h)) ..)

/-- K only bounds w: the value written is the mask in all DW bits. -/
theorem exec_mask_of {s : State} {K w : Nat} (hK : K ≤ s.cfg.DW) (hw : w ≤ K) :
    exec (.mask K w) s = .next { s with R := maskBits s.cfg.DW w } :=
  calc exec (.mask K w) s
    _ = .next (s.writeR (maskBits K w)) := (needPort_of hK _).trans (require_of (decide_eq_true hw) ..)
    _ = .next { s with R := maskBits s.cfg.DW w } := by rw [State.writeR, convert_maskBits s.cfg.DW hw]

/-- Settles O22: the word by its fields, each check by its bound, and past the checks the mask in R. -/
theorem maskWritesLowOnes : Obligations.MaskWritesLowOnes := by
  intro s K w
  refine ⟨fun hK hw => ?_, exec_mask_eq_raise_portWidth, exec_mask_eq_raise_maskWidth, fun hK hw => ?_⟩
  · have hpos : 0 < 2 ^ s.cfg.FW := Nat.two_pow_pos s.cfg.FW
    exact decode_wordOf s.cfg (by decide) hK hw hpos hpos
  · exact ⟨_, exec_mask_of hK hw, maskBits_toNat (hw.trans hK), maskBits_getLsbD_of_le (hw.trans hK)⟩

end Sys2Proof.Machine
end

section
/-! The positioned mask of a whole-slice write (40_mask.md R104). -/

namespace Sys2Proof.Machine

/-- No one bit is lost at the top: shifting multiplies the mask's value by `2 ^ lo`. -/
theorem positionedMask_toNat {N lo width : Nat} (h : lo + width ≤ N) :
    (maskBits N width <<< lo).toNat = (2 ^ width - 1) * 2 ^ lo := by
  have hpred : 2 ^ width - 1 < 2 ^ width := Nat.sub_one_lt_of_lt (Nat.two_pow_pos width)
  have fits : (2 ^ width - 1) * 2 ^ lo < 2 ^ N :=
    calc (2 ^ width - 1) * 2 ^ lo
      _ < 2 ^ width * 2 ^ lo := Nat.mul_lt_mul_of_pos_right hpred (Nat.two_pow_pos lo)
      _ = 2 ^ (lo + width) := by rw [Nat.mul_comm, ← Nat.pow_add]
      _ ≤ 2 ^ N := Nat.pow_le_pow_right (by decide) h
  rw [BitVec.toNat_shiftLeft, maskBits_toNat ((Nat.le_add_left width lo).trans h), Nat.shiftLeft_eq,
    Nat.mod_eq_of_lt fits]

theorem positionedMask_getLsbD {N lo width : Nat} (h : lo + width ≤ N) (k : Nat) :
    (maskBits N width <<< lo).getLsbD k = decide (lo ≤ k ∧ k < lo + width) := by
  rw [BitVec.getLsbD_shiftLeft, maskBits_getLsbD_of_le ((Nat.le_add_left width lo).trans h), ← decide_not,
    ← Bool.decide_and, ← Bool.decide_and, decide_eq_decide]
  omega

theorem raise_injective {k k' : Cause} {s : State} (h : raise k s = raise k' s) : k = k' := by
  rw [raise_eq, raise_eq] at h
  split at h
  · exact Cause.code_injective (congrArg State.CAUSE (Host.Outcome.next.inj h))
  · cases h; rfl

/-- A command raises no cause whose precondition it keeps: another cause is another record or another fault, and a
command that completes leaves FAULT 0. -/
theorem exec_ne_raise {i : Instr} {s : State} {k : Cause} (hF : s.FAULT = false) (hb : ¬ Breaks s.cfg i k) :
    exec i s ≠ raise k s := by
  intro h
  obtain ⟨k', hk', -, he⟩ | ⟨-, V', R', F', he, -⟩ := exec_cases i s
  · exact hb (raise_injective (he.symm.trans h) ▸ hk')
  · obtain ⟨-, ht⟩ := raise_eq_next (h.symm.trans he)
    have hset : s.FAULT = true := congrArg State.FAULT ht
    cases hF.symm.trans hset

/-- MASK_WIDTH is a precondition of the commands with a mask width alone. -/
theorem not_breaks_maskWidth {c : Config} {i : Instr} (h : maskWidths i = []) : ¬ Breaks c i .maskWidth := by
  rintro ⟨p, hp, -⟩
  exact List.not_mem_nil (h ▸ hp)

/-- Settles O25: the value and the bits of the shifted mask; and no whole-slice write has the precondition
MASK_WIDTH. -/
theorem positionedMaskCoversSlice : Obligations.PositionedMaskCoversSlice :=
  ⟨fun _ _ _ h => ⟨positionedMask_toNat h, positionedMask_getLsbD h⟩, fun _ _ _ _ hF =>
    ⟨exec_ne_raise hF (not_breaks_maskWidth rfl), exec_ne_raise hF (not_breaks_maskWidth rfl),
      exec_ne_raise hF (not_breaks_maskWidth rfl)⟩⟩

end Sys2Proof.Machine
end

section
/-! The algorithm of the Width Converter (41_convert.md R111, R112): each of its three cases gives the conversion. -/

namespace Sys2Proof.Machine

/-- A width that holds all of the source on the way does not show in the result. -/
theorem convert_convert_of_le {M W : Nat} (D : Nat) (h : M ≤ W) (v : BitVec M) :
    convert D (convert W v) = convert D v :=
  BitVec.setWidth_setWidth fun hlost => Nat.not_lt.mpr h hlost.1

/-- The chunks of an X-bit value have room for all of its bits. -/
theorem le_mul_wordCount (X : Nat) : X ≤ 64 * wordCount X := by
  rw [wordCount]
  omega

/-- The chunks that both widths have carry every bit below both: the result loses only what lies at or above `D`. -/
theorem chunkedCopy_wordCount {M : Nat} (D : Nat) (src : BitVec M) :
    chunkedCopy D src (min (wordCount M) (wordCount D)) = convert D src := by
  refine BitVec.eq_of_getLsbD_eq fun j hj => ?_
  rw [chunkedCopy_getLsbD, convert_getLsbD]
  by_cases hM : j < M
  · have hcopied : j < min (64 * min (wordCount M) (wordCount D)) D := by
      have := le_mul_wordCount M
      have := le_mul_wordCount D
      omega
    rw [decide_eq_true hcopied, decide_eq_true hj]
  · rw [BitVec.getLsbD_of_ge src j (Nat.not_lt.mp hM), Bool.and_false, Bool.and_false]

theorem convertByChunks_eq_convert {M : Nat} (D : Nat) (src : BitVec M) : convertByChunks D src = convert D src := by
  rw [convertByChunks]
  split
  · next hidentity => subst hidentity; rw [BitVec.cast_eq, convert_self]
  · split
    · next hscalar => exact convert_convert_of_le D hscalar src
    · exact chunkedCopy_wordCount D src

/-- Settles O26: the algorithm's value is the conversion, whose bits are known. -/
theorem convertAlgorithmGivesConvert : Obligations.ConvertAlgorithmGivesConvert := by
  intro M D src
  rw [convertByChunks_eq_convert]
  exact ⟨rfl, convert_getLsbD_min D src⟩

end Sys2Proof.Machine
end

section
/-! The command CONV (41_convert.md R110): its word, its check on either width, and the value it writes. -/

namespace Sys2Proof.Machine

/-- Either width may be the one that is too wide: the check of the source comes first, and both raise PORT_WIDTH. -/
theorem exec_conv_eq_raise_portWidth {s : State} {Ws Wd : Nat} (h : s.cfg.DW < Ws ∨ s.cfg.DW < Wd) :
    exec (.conv Ws Wd) s = raise .portWidth s := by
  by_cases hs : s.cfg.DW < Ws
  · exact needPort_of_not hs _
  · exact (needPort_of (Nat.not_lt.mp hs) _).trans (needPort_of_not (h.resolve_left hs) _)

theorem convert_getLsbD_of_le {M D : Nat} (h : M ≤ D) (v : BitVec M) (j : Nat) :
    (convert D v).getLsbD j = v.getLsbD j := by
  rw [← BitVec.testBit_toNat, convert_toNat_of_le h, BitVec.testBit_toNat]

/-- The bits of `din` that pass both widths. -/
theorem convert_source_getLsbD (s : State) (Ws Wd j : Nat) :
    (convert Wd (s.source Ws)).getLsbD j = (decide (j < min Ws Wd) && s.port.din.getLsbD j) := by
  rw [convert_getLsbD_min, State.source, convert_getLsbD, ← Bool.and_assoc, ← Bool.decide_and]
  congr 1
  rw [decide_eq_decide]
  omega

/-- Settles O23: the word by its fields, the check by its bounds, and past it the bits of `din` below both widths in
R, which is wide enough for the result (`Wd ≤ DW`). -/
theorem convWritesConvertedSource : Obligations.ConvWritesConvertedSource := by
  intro s Ws Wd
  refine ⟨fun hWs hWd => ?_, exec_conv_eq_raise_portWidth, fun hs hd => ?_⟩
  · have hpos : 0 < 2 ^ s.cfg.FW := Nat.two_pow_pos s.cfg.FW
    exact decode_wordOf s.cfg (by decide) hWs hWd hpos hpos
  · refine ⟨_, exec_conv_of hs hd, fun j => ?_⟩
    rw [convert_getLsbD_of_le hd, convert_source_getLsbD]

end Sys2Proof.Machine
end

section
/-! Accepted commands that break no precondition (42_vector.md R132, 43_slice.md R178, 20_memory.md R63). -/

namespace Sys2Proof.Machine

/-- A word that breaks no precondition is a command, since an illegal word breaks that of ILLEGAL_ENCODING. -/
theorem exists_decode_of_not_wordBreaks {c : Config} {w : BitVec c.CW} (h : ∀ k, ¬ WordBreaks c w k) :
    ∃ i, decode c w = .ok i := by
  cases hd : decode c w with
  | ok i => exact ⟨i, rfl⟩
  | error e => exact absurd ⟨e, hd⟩ (h .illegalEncoding)

/-- Settles O14: a command that answered with a violation would make the word break the violation's cause. -/
theorem legalCommandCompletes : Obligations.LegalCommandCompletes := by
  intro s hrst hvalid hready hlegal
  obtain ⟨i, hi⟩ := exists_decode_of_not_wordBreaks hlegal
  rw [step_of_accepted hrst hvalid hready, runCommand, hi]
  obtain ⟨k, hk, hmin, -⟩ | ⟨-, V', R', F', hs, -⟩ := exec_cases i s
  · exact absurd (Reports.of_ok hi hk hmin).1 (hlegal k)
  · exact ⟨V', R', F', congrArg (mapNext State.nextSlot) hs⟩

end Sys2Proof.Machine
end

section
/-! The Bit Vector commands on all of V: CLR, LOAD and READV (42_vector.md R120 to R122). -/

namespace Sys2Proof.Machine

/-- The word of a command with at most the operand A: formats Z, U and UV (30_encoding.md R72). -/
theorem decode_wordOf_operandA (c : Config) {h A : Nat} (hh : h < 2 ^ 16) (hA : A < 2 ^ c.FW) :
    decode c (wordOf c h A 0 0 0) = decodeFields
      { OP := BitVec.ofNat 8 h, MD := BitVec.ofNat 2 (h / 2 ^ 8), MS := BitVec.ofNat 2 (h / 2 ^ 10),
        VB := h.testBit 12, RSV := BitVec.ofNat 3 (h / 2 ^ 13), A := A } :=
  have hpos : 0 < 2 ^ c.FW := Nat.two_pow_pos c.FW
  decode_wordOf c hh hA hpos hpos hpos

/-- The word of a command with no operand: format Z. -/
theorem decode_wordOf_noOperand (c : Config) {h : Nat} (hh : h < 2 ^ 16) :
    decode c (wordOf c h 0 0 0 0) = decodeFields
      { OP := BitVec.ofNat 8 h, MD := BitVec.ofNat 2 (h / 2 ^ 8), MS := BitVec.ofNat 2 (h / 2 ^ 10),
        VB := h.testBit 12, RSV := BitVec.ofNat 3 (h / 2 ^ 13) } :=
  decode_wordOf_operandA c hh (Nat.two_pow_pos c.FW)

/-- What a command that maps V gives from the state itself. -/
theorem MapsV.exec_eq {i : Instr} {s : State} {f : BitVec s.cfg.N → BitVec s.cfg.N} (hf : MapsV i s f) :
    exec i s = .next (s.writeV (f s.V)) := hf s.V

/-- Settles O28: no check, and 0 in V. -/
theorem clrClearsVector : Obligations.ClrClearsVector := fun s =>
  ⟨decode_wordOf_noOperand s.cfg (by decide), _, mapsV_clr.exec_eq, fun _ => BitVec.getLsbD_zero⟩

/-- Settles O29: the source is the low `Ws` bits of `din`, and V takes those it has room for. -/
theorem loadTakesSourceBits : Obligations.LoadTakesSourceBits := by
  intro s Ws
  refine ⟨decode_wordOf_operandA s.cfg (by decide), fun h => needPort_of_not h _, fun h => ?_⟩
  refine ⟨_, (mapsV_load h).exec_eq, fun k hk => ?_⟩
  rw [State.source, convert_getLsbD, convert_getLsbD, decide_eq_true hk, Bool.true_and]

/-- Settles O30: the bits of V below both widths, in R, which is wide enough for the result (`Wd ≤ DW`). -/
theorem readvGivesVectorBits : Obligations.ReadvGivesVectorBits := by
  intro s Wd
  refine ⟨decode_wordOf_operandA s.cfg (by decide), fun h => needPort_of_not h _, fun h => ?_⟩
  refine ⟨_, exec_readv_of h, fun j => ?_⟩
  rw [convert_getLsbD_of_le h, convert_getLsbD_min]

end Sys2Proof.Machine
end

section
/-! The Bit Vector commands on one bit of V: TEST, SET, RESET and FLIP (42_vector.md R123 to R126). -/

namespace Sys2Proof.Machine

theorem writeBit_getLsbD_same {N : Nat} (V : BitVec N) {i : Nat} (b : Bool) (hi : i < N) :
    (writeBit V i b).getLsbD i = b := by
  rw [writeBit_getLsbD V b i hi, if_pos rfl]

theorem writeBit_getLsbD_of_ne {N : Nat} (V : BitVec N) {i k : Nat} (b : Bool) (hi : i < N) (hk : k ≠ i) :
    (writeBit V i b).getLsbD k = V.getLsbD k := by
  rw [writeBit_getLsbD V b k hi, if_neg hk]

/-- A command whose map of V undoes itself gives the state back when it is given again. -/
theorem MapsV.exec_undo {i : Instr} {s : State} {f : BitVec s.cfg.N → BitVec s.cfg.N} (hf : MapsV i s f)
    (hinv : Function.Involutive f) : exec i (s.writeV (f s.V)) = .next s := by
  rw [hf, hinv]
  rfl

/-- RESET is SET with the bit value 0 (R124). -/
theorem exec_set_false (i : Nat) (s : State) : exec (.set i false) s = exec (.reset i) s := rfl

/-- Settles O31: the word, the check, and the bit. -/
theorem testReadsBit : Obligations.TestReadsBit := fun s _ =>
  ⟨decode_wordOf_operandA s.cfg (by decide), fun h => needBit_of_not h _, fun h => needBit_of h _⟩

/-- Settles O32: the bit value is header bit 12 of the word, and V changes by `writeBit`. -/
theorem setWritesOneBit : Obligations.SetWritesOneBit := by
  intro s i b
  refine ⟨fun hi => ?_, fun h => needBit_of_not h _, fun h => ?_, exec_set_false i s⟩
  · cases b with
    | false => exact decode_wordOf_operandA s.cfg (by decide) hi
    | true => exact decode_wordOf_operandA s.cfg (by decide) hi
  · exact ⟨_, (mapsV_set b h).exec_eq, writeBit_getLsbD_same s.V b h, fun _ => writeBit_getLsbD_of_ne s.V b h⟩

/-- Settles O33: the word is RESET's own, and the effect is that of `SET i, 0`. -/
theorem resetCommandClearsOneBit : Obligations.ResetCommandClearsOneBit := by
  intro s i
  obtain ⟨-, hraise, hwrite, hreset⟩ := setWritesOneBit s i false
  rw [hreset] at hraise hwrite
  exact ⟨decode_wordOf_operandA s.cfg (by decide), hraise, hwrite⟩

/-- Settles O34: V changes by `writeBit` of the opposite bit, which undoes itself. -/
theorem flipInvertsOneBit : Obligations.FlipInvertsOneBit := by
  intro s i
  refine ⟨decode_wordOf_operandA s.cfg (by decide), fun h => needBit_of_not h _, fun h => ?_⟩
  refine ⟨_, (mapsV_flip h).exec_eq, writeBit_getLsbD_same s.V _ h, fun _ => writeBit_getLsbD_of_ne s.V _ h, ?_⟩
  exact (mapsV_flip h).exec_undo (invertBit_involutive h)

end Sys2Proof.Machine
end

section
/-! The Bit Vector commands that query V: ANY, ALL, NONE, COUNT and EQ (42_vector.md R127 to R131). -/

namespace Sys2Proof.Machine

section
variable (s : State)

theorem noneFlag_iff : noneFlag s = true ↔ ∀ k, k < s.cfg.N → s.V.getLsbD k = false := by
  rw [noneFlag, beq_iff_eq, BitVec.eq_of_getLsbD_eq_iff]
  simp only [BitVec.getLsbD_zero]

theorem anyFlag_eq_not_noneFlag : anyFlag s = !noneFlag s := rfl

theorem anyFlag_iff : anyFlag s = true ↔ ∃ k, k < s.cfg.N ∧ s.V.getLsbD k = true := by
  rw [anyFlag_eq_not_noneFlag, Bool.not_eq_true', ← Bool.not_eq_true, noneFlag_iff]
  simp only [not_forall, exists_prop, Bool.not_eq_false]

theorem allFlag_iff : allFlag s = true ↔ ∀ k, k < s.cfg.N → s.V.getLsbD k = true := by
  rw [allFlag, beq_iff_eq, BitVec.eq_of_getLsbD_eq_iff]
  refine forall₂_congr fun k hk => ?_
  rw [maskBits_getLsbD_of_le le_rfl, decide_eq_true hk]

/-- Of one bit, some bit is 1 just when every bit is. -/
theorem allFlag_eq_anyFlag (hN : s.cfg.N = 1) : allFlag s = anyFlag s := by
  rw [Bool.eq_iff_iff, allFlag_iff, anyFlag_iff]
  simp only [hN, Nat.lt_one_iff, forall_eq, exists_eq_left]

theorem eqFlag_iff : eqFlag s = true ↔ ∀ k, k < s.cfg.N → s.V.getLsbD k = s.port.din.getLsbD k := by
  rw [eqFlag, beq_iff_eq, BitVec.eq_of_getLsbD_eq_iff]
  refine forall₂_congr fun k hk => ?_
  rw [State.comparand, convert_getLsbD, decide_eq_true hk, Bool.true_and]

/-- The count fits R: it is at most N, and `N ≤ DW`. -/
theorem popcount_lt_two_pow_DW : popcount s.V < 2 ^ s.cfg.DW :=
  calc popcount s.V
    _ ≤ s.cfg.N := popcount_le s.V
    _ ≤ s.cfg.DW := (le_max_left _ _).trans s.cfg.DW_ge
    _ < 2 ^ s.cfg.DW := Nat.lt_two_pow_self

theorem exec_count : exec .count s = .next { s with R := BitVec.ofNat s.cfg.DW (popcount s.V) } :=
  calc exec .count s
    _ = .next (s.writeR (BitVec.ofNat s.cfg.DW (popcount s.V))) := rfl
    _ = .next { s with R := BitVec.ofNat s.cfg.DW (popcount s.V) } := by rw [State.writeR, convert_self]

theorem count_toNat : (BitVec.ofNat s.cfg.DW (popcount s.V)).toNat = popcount s.V := by
  rw [BitVec.toNat_ofNat, Nat.mod_eq_of_lt (popcount_lt_two_pow_DW s)]

end

/-- Settles O35: no check, and in F the flag of each command, whose meaning in bits is known. -/
theorem anyAllNoneQueryVector : Obligations.AnyAllNoneQueryVector := by
  intro s
  refine ⟨?_, ?_, ?_, anyFlag s, allFlag s, noneFlag s, rfl, rfl, rfl, anyFlag_iff s, allFlag_iff s, noneFlag_iff s,
    anyFlag_eq_not_noneFlag s, allFlag_eq_anyFlag s⟩
  all_goals exact decode_wordOf_noOperand s.cfg (by decide)

/-- Settles O36: R holds the count, which is the cardinality of the set of one bits. -/
theorem countGivesNumberOfOnes : Obligations.CountGivesNumberOfOnes := by
  intro s
  refine ⟨decode_wordOf_noOperand s.cfg (by decide), _, exec_count s, ?_⟩
  rw [count_toNat]
  exact ⟨popcount_le s.V, popcount_card s.V⟩

/-- Settles O37: no check, and in F whether V is the comparand, the low N bits of `din`. -/
theorem eqComparesLowBitsOfDin : Obligations.EqComparesLowBitsOfDin := fun s =>
  ⟨decode_wordOf_noOperand s.cfg (by decide), eqFlag s, rfl, eqFlag_iff s⟩

end Sys2Proof.Machine
end

section
/-! The fields of a slice operand in a command word (30_encoding.md R71, R77). -/

namespace Sys2Proof

theorem SliceOperand.field_lt_of_wf {c : Config} {sl : SliceOperand} (h : sl.wf c = true) :
    sl.field1 < 2 ^ c.FW ∧ sl.field2 < 2 ^ c.FW := by
  cases sl <;> simpa [SliceOperand.wf, fitsField, SliceOperand.field1, SliceOperand.field2] using h

/-- A command with two slice operands is illegal when either mode is 3 (R77). -/
theorem Fields.sliced2_eq_error_of_mode3 {f : Fields} {fmt : Format} {mk : SliceOperand → SliceOperand → Instr}
    (hunused : f.unusedZero fmt = true) (h : f.MD = 3#2 ∨ f.MS = 3#2) : f.sliced2 fmt mk = .error .sliceMode := by
  rw [Fields.sliced2, if_pos hunused]
  split
  · next hdst hsrc =>
    obtain hMD | hMS := h
    · exact absurd hMD (SliceOperand.mode_ne_three_of_ofFields hdst)
    · exact absurd hMS (SliceOperand.mode_ne_three_of_ofFields hsrc)
  · rfl

end Sys2Proof
end

section
/-! Slice operands (43_slice.md R160), and the words of the Bit Slice commands (30_encoding.md R70 to R72). -/

namespace Sys2Proof.Machine

/-- Settles O38: `resolve` is the table of R160, and what it gives is what the operand denotes. -/
theorem sliceOperandsDecode : Obligations.SliceOperandsDecode := by
  refine ⟨fun _ _ _ => rfl, fun _ _ _ => rfl, fun _ _ _ => rfl, fun N sl r hr => ?_,
    fun _ _ => ⟨rfl, rfl, rfl, rfl⟩, fun s sl k hr => withSlice_of_not (resolve_eq_none.mp hr) k⟩
  have hd : Denotes N sl r.lo r.width := resolve_eq_some.mp hr
  refine ⟨hd.bound, ?_, ?_⟩
  · rintro hi lo rfl
    obtain ⟨⟨hle, -⟩, hlo, hsum⟩ := hd
    omega
  · rintro hi width rfl
    obtain ⟨-, -, hsum⟩ := hd
    exact hsum.symm

/-- A word whose header is given by the fields OP, MD, MS and VB, with RSV 0, decodes as these fields. -/
theorem decode_wordOf_headerFields (c : Config) (op : Opcode) (md ms : ModeField) (vb : Bool) {A B C D : Nat}
    (hA : A < 2 ^ c.FW) (hB : B < 2 ^ c.FW) (hC : C < 2 ^ c.FW) (hD : D < 2 ^ c.FW) :
    decode c (wordOf c (op.toNat + 0x100 * md.toNat + 0x400 * ms.toNat + 0x1000 * vb.toNat) A B C D) =
      decodeFields { OP := op, MD := md, MS := ms, VB := vb, A := A, B := B, C := C, D := D } := by
  have hop : op.toNat < 2 ^ 8 := op.isLt
  have hmd : md.toNat < 2 ^ 2 := md.isLt
  have hms : ms.toNat < 2 ^ 2 := ms.isLt
  have hvb : vb.toNat < 2 := vb.toNat_lt
  rw [decode_wordOf c (by omega) hA hB hC hD]
  generalize hh : op.toNat + 0x100 * md.toNat + 0x400 * ms.toNat + 0x1000 * vb.toNat = h
  have eOP : BitVec.ofNat 8 h = op := BitVec.eq_of_toNat_eq (by rw [BitVec.toNat_ofNat]; omega)
  have eMD : BitVec.ofNat 2 (h / 2 ^ 8) = md := BitVec.eq_of_toNat_eq (by rw [BitVec.toNat_ofNat]; omega)
  have eMS : BitVec.ofNat 2 (h / 2 ^ 10) = ms := BitVec.eq_of_toNat_eq (by rw [BitVec.toNat_ofNat]; omega)
  have eRSV : BitVec.ofNat 3 (h / 2 ^ 13) = 0#3 := BitVec.eq_of_toNat_eq (by simp only [BitVec.toNat_ofNat]; omega)
  have eVB : h.testBit 12 = vb := by
    rw [Bool.eq_iff_iff, Nat.testBit_eq_decide_div_mod_eq, decide_eq_true_iff, ← Bool.toNat_eq_one]
    omega
  rw [eOP, eMD, eMS, eVB, eRSV]

/-- The word of a command with one slice operand: formats S and SV. -/
theorem decode_wordOf_slice (c : Config) (op : Opcode) (vb : Bool) {sl : SliceOperand} {x : Nat}
    (hsl : sl.wf c = true) (hx : x < 2 ^ c.FW) :
    decode c (wordOf c (sliceHeader op.toNat sl + 0x1000 * vb.toNat) sl.field1 sl.field2 x 0) =
      decodeFields { OP := op, MD := sl.mode, VB := vb, A := sl.field1, B := sl.field2, C := x } := by
  obtain ⟨h1, h2⟩ := SliceOperand.field_lt_of_wf hsl
  exact decode_wordOf_headerFields c op sl.mode 0#2 vb h1 h2 hx (Nat.two_pow_pos c.FW)

/-- The word of such a command with mode 3 in MD. -/
theorem decode_wordOf_mode3 (c : Config) (op : Opcode) (vb : Bool) {x y z : Nat}
    (hx : x < 2 ^ c.FW) (hy : y < 2 ^ c.FW) (hz : z < 2 ^ c.FW) :
    decode c (wordOf c (op.toNat + 0x300 + 0x1000 * vb.toNat) x y z 0) =
      decodeFields { OP := op, MD := 3#2, VB := vb, A := x, B := y, C := z } :=
  decode_wordOf_headerFields c op 3#2 0#2 vb hx hy hz (Nat.two_pow_pos c.FW)

end Sys2Proof.Machine
end

section
/-! The Bit Slice commands on one bit of the slice: SGET, SSET and SFLIP (43_slice.md R165 to R167). -/

namespace Sys2Proof.Machine

theorem exec_sget (sl : SliceOperand) (i : Nat) (s : State) :
    exec (.sget sl i) s = withSliceBit s sl i fun k => .next (s.writeF (bitFlag s k)) := rfl

theorem exec_sset (sl : SliceOperand) (i : Nat) (b : Bool) (s : State) :
    exec (.sset sl i b) s = withSliceBit s sl i fun k => .next (s.writeV (writeBit s.V k b)) := rfl

theorem exec_sflip (sl : SliceOperand) (i : Nat) (s : State) :
    exec (.sflip sl i) s = withSliceBit s sl i fun k => .next (s.writeV (writeBit s.V k (!s.V.getLsbD k))) := rfl

theorem exec_test_of {s : State} {i : Nat} {b : Bool} (h : i < s.cfg.N) (hb : s.V.getLsbD i = b) :
    exec (.test i) s = .next { s with F := b } := hb ▸ needBit_of h _

theorem exec_sget_of {s : State} {sl : SliceOperand} {lo width i : Nat} (hd : Denotes s.cfg.N sl lo width)
    (hi : i < width) : exec (.sget sl i) s = .next { s with F := s.V.getLsbD (lo + i) } := by
  rw [exec_sget, withSliceBit_of hd hi]
  rfl

/-- SGET of a bit of the slice is TEST of the same bit of V. -/
theorem exec_sget_eq_exec_test {s : State} {sl : SliceOperand} {lo width i : Nat}
    (hd : Denotes s.cfg.N sl lo width) (hi : i < width) : exec (.sget sl i) s = exec (.test (lo + i)) s := by
  rw [exec_sget_of hd hi, exec_test_of (hd.index_lt hi) rfl]

/-- Settles O39: the word, the two checks, and the bit. -/
theorem sgetReadsSliceBit : Obligations.SgetReadsSliceBit := by
  refine ⟨fun c sl i hsl hi => ?_, fun c a b i ha hb hi => ?_, fun s sl i => ⟨fun h => ?_, fun lo width hd =>
    ⟨fun hi => ?_, fun hi => ⟨exec_sget_of hd hi, exec_sget_eq_exec_test hd hi⟩⟩⟩⟩
  · exact (decode_wordOf_slice c 0x20#8 false hsl hi).trans (Laws.FieldsRoundTrip.sget sl i)
  · exact decode_wordOf_mode3 c 0x20#8 false ha hb hi
  · rw [exec_sget, withSliceBit_of_not h]
  · rw [exec_sget, withSliceBit_of_index hd hi]

/-- Settles O40: the bit value is header bit 12 of the word, and V changes by `writeBit`. -/
theorem ssetWritesSliceBit : Obligations.SsetWritesSliceBit := by
  refine ⟨fun c sl i b hsl hi => ?_, fun c x y i b hx hy hi => ?_, fun s sl i b => ⟨fun h => ?_, fun lo width hd =>
    ⟨fun hi => ?_, fun hi => ?_⟩⟩⟩
  · exact (decode_wordOf_slice c 0x21#8 b hsl hi).trans (Laws.FieldsRoundTrip.sset sl i b)
  · exact decode_wordOf_mode3 c 0x21#8 b hx hy hi
  · rw [exec_sset, withSliceBit_of_not h]
  · rw [exec_sset, withSliceBit_of_index hd hi]
  · have hbit : lo + i < s.cfg.N := hd.index_lt hi
    exact ⟨_, (mapsV_sset hd b hi).exec_eq, writeBit_getLsbD_same s.V b hbit,
      fun _ => writeBit_getLsbD_of_ne s.V b hbit⟩

/-- Settles O41: V changes by `writeBit` of the opposite bit, and TEST reads what was written. -/
theorem sflipInvertsSliceBit : Obligations.SflipInvertsSliceBit := by
  refine ⟨fun c sl i hsl hi => ?_, fun c a b i ha hb hi => ?_, fun s sl i => ⟨fun h => ?_, fun lo width hd =>
    ⟨fun hi => ?_, fun hi => ?_⟩⟩⟩
  · exact (decode_wordOf_slice c 0x22#8 false hsl hi).trans (Laws.FieldsRoundTrip.sflip sl i)
  · exact decode_wordOf_mode3 c 0x22#8 false ha hb hi
  · rw [exec_sflip, withSliceBit_of_not h]
  · rw [exec_sflip, withSliceBit_of_index hd hi]
  · have hbit : lo + i < s.cfg.N := hd.index_lt hi
    have hnew : (writeBit s.V (lo + i) (!s.V.getLsbD (lo + i))).getLsbD (lo + i) = !s.V.getLsbD (lo + i) :=
      writeBit_getLsbD_same s.V _ hbit
    refine ⟨_, (mapsV_sflip hd hi).exec_eq, hnew, fun _ => writeBit_getLsbD_of_ne s.V _ hbit, ?_⟩
    exact exec_test_of (s := s.writeV _) hbit hnew

end Sys2Proof.Machine
end

section
/-! The read of a whole slice: SRD (43_slice.md R170, R177). -/

namespace Sys2Proof.Machine

theorem Denotes.width_le_DW {c : Config} {sl : SliceOperand} {lo width : Nat} (hd : Denotes c.N sl lo width) :
    width ≤ c.DW :=
  calc width
    _ ≤ lo + width := Nat.le_add_left width lo
    _ ≤ c.N := hd.bound
    _ ≤ c.DW := (le_max_left c.N 64).trans c.DW_ge

theorem exec_srd_of {s : State} {sl : SliceOperand} {lo width Wd : Nat} (hd : Denotes s.cfg.N sl lo width)
    (h : Wd ≤ s.cfg.DW) :
    exec (.srd sl Wd) s = .next (s.writeR (convert Wd (memRead s.V lo width))) :=
  (withSlice_of hd _).trans (needPort_of h _)

/-- The bits of the slice that the result has room for. -/
theorem convert_memRead_getLsbD {N : Nat} (V : BitVec N) (lo width Wd j : Nat) :
    (convert Wd (memRead V lo width)).getLsbD j = (decide (j < min width Wd) && V.getLsbD (lo + j)) := by
  rw [convert_getLsbD, memRead_getLsbD, ← Bool.and_assoc, ← Bool.decide_and]
  congr 1
  rw [decide_eq_decide]
  omega

/-- Settles O42: the bits of the slice below both widths, in R, which is wide enough for the result (`Wd ≤ DW`). -/
theorem srdReadsSliceRightJustified : Obligations.SrdReadsSliceRightJustified := by
  refine ⟨fun c sl Wd hsl hW => ?_, fun c a b Wd ha hb hW => ?_, fun s sl Wd => ⟨fun h => ?_, fun hl h => ?_,
    fun lo width hd h => ⟨_, exec_srd_of hd h, fun j => ?_⟩⟩⟩
  · exact (decode_wordOf_slice c 0x23#8 false hsl hW).trans (Laws.FieldsRoundTrip.srd sl Wd)
  · exact decode_wordOf_mode3 c 0x23#8 false ha hb hW
  · exact withSlice_of_not h _
  · obtain ⟨lo, width, hd⟩ := hl.denotes
    exact (withSlice_of hd _).trans (needPort_of_not h _)
  · rw [convert_getLsbD_of_le h, convert_memRead_getLsbD]

/-- Settles O48: SGET and SRD read the slice where it lies in V. -/
theorem sliceReadsAreConsistent : Obligations.SliceReadsAreConsistent := by
  intro s sl lo width hd
  refine ⟨fun i => exec_sget_eq_exec_test hd, _, exec_srd_of hd hd.width_le_DW, ?_⟩
  rw [convert_self, convert_toNat_of_le hd.width_le_DW, memRead_toNat]

end Sys2Proof.Machine
end

section
/-! The whole-slice write (43_slice.md R171, R172), and the commands that make one from `din`: SWR and SWRI (R173,
R174). -/

namespace Sys2Proof.Machine

section
variable {N M : Nat} (V : BitVec N) {lo width : Nat} (x : BitVec M)

theorem sliceWrite_getLsbD_inside (hbound : lo + width ≤ N) {j : Nat} (hj : j < width) :
    (sliceWrite V lo width x).getLsbD (lo + j) = x.getLsbD j := by
  rw [sliceWrite_getLsbD V lo width x _ (by omega), if_pos (by omega), Nat.add_sub_cancel_left]

theorem sliceWrite_getLsbD_outside {k : Nat} (hk : k < lo ∨ lo + width ≤ k) :
    (sliceWrite V lo width x).getLsbD k = V.getLsbD k := by
  by_cases hN : k < N
  · rw [sliceWrite_getLsbD V lo width x k hN, if_neg (by omega)]
  · rw [BitVec.getLsbD_of_ge _ k (Nat.not_lt.mp hN), BitVec.getLsbD_of_ge V k (Nat.not_lt.mp hN)]

/-- The slice receives the source converted to its width. -/
theorem memRead_sliceWrite (hbound : lo + width ≤ N) :
    memRead (sliceWrite V lo width x) lo width = convert width x := by
  refine BitVec.eq_of_getLsbD_eq fun j hj => ?_
  rw [memRead_getLsbD, convert_getLsbD, sliceWrite_getLsbD_inside V x hbound hj]

end

/-- Settles O43: bit `k` of the slice is bit `k - lo` of the source, which has none at or above its own width. -/
theorem sliceWriteBitByBit : Obligations.SliceWriteBitByBit := by
  intro N Ms lo width V src hbound
  have hinside {k : Nat} (hlo : lo ≤ k) (hhi : k < lo + width) :
      (sliceWrite V lo width src).getLsbD k = src.getLsbD (k - lo) := by
    have h := sliceWrite_getLsbD_inside V src hbound (j := k - lo) (by omega)
    rwa [Nat.add_sub_cancel' hlo] at h
  refine ⟨fun k _ => ⟨?_, ?_, sliceWrite_getLsbD_outside V src⟩, memRead_sliceWrite V src hbound⟩
  · rintro ⟨hlo, hhi, -⟩
    exact hinside hlo hhi
  · rintro ⟨hlo, hhi, hM⟩
    rw [hinside hlo hhi, BitVec.getLsbD_of_ge src _ hM]

/-- Settles O44: V changes by the whole-slice write of the low `Ws` bits of `din`. -/
theorem swrWritesSliceFromDin : Obligations.SwrWritesSliceFromDin := by
  refine ⟨fun c sl Ws hsl hW => ?_, fun c a b Ws ha hb hW => ?_, fun s sl Ws => ⟨fun h => ?_, fun hl h => ?_,
    fun lo width hd h => ?_⟩⟩
  · exact (decode_wordOf_slice c 0x24#8 false hsl hW).trans (Laws.FieldsRoundTrip.swr sl Ws)
  · exact decode_wordOf_mode3 c 0x24#8 false ha hb hW
  · exact withSlice_of_not h _
  · obtain ⟨lo, width, hd⟩ := hl.denotes
    exact (withSlice_of hd _).trans (needPort_of_not h _)
  · refine ⟨_, (mapsV_swr hd h).exec_eq, fun j hj => ?_, fun _ => sliceWrite_getLsbD_outside s.V _⟩
    rw [sliceWrite_getLsbD_inside s.V _ hd.bound hj, State.source, convert_getLsbD]

/-- SWRI is SWR of 64 bits: every build's port holds them, so PORT_WIDTH is not raised. -/
theorem exec_swri_eq_exec_swr (sl : SliceOperand) (s : State) : exec (.swri sl) s = exec (.swr sl 64) s := by
  refine congrArg (withSlice s sl) (funext fun r => ?_)
  exact (needPort_of (scalarWidth_le_DW s.cfg) _).symm

/-- Settles O45: the word is SWRI's own, and the effect is that of SWR with `Ws = 64`. -/
theorem swriWritesSliceFromScalar : Obligations.SwriWritesSliceFromScalar := by
  refine ⟨fun c sl hsl => ?_, fun c a b ha hb => ?_, fun s sl => ?_⟩
  · exact (decode_wordOf_slice c 0x25#8 false hsl (Nat.two_pow_pos c.FW)).trans (Laws.FieldsRoundTrip.swri sl)
  · exact decode_wordOf_mode3 c 0x25#8 false ha hb (Nat.two_pow_pos c.FW)
  · obtain ⟨-, -, hexec⟩ := swrWritesSliceFromDin
    obtain ⟨hbounds, -, hwrite⟩ := hexec s sl 64
    rw [exec_swri_eq_exec_swr]
    exact ⟨hbounds, fun lo width hd => hwrite lo width hd (scalarWidth_le_DW s.cfg), rfl⟩

end Sys2Proof.Machine
end

section
/-! The copy of one slice of V to another: SWRS (43_slice.md R175, R176). -/

namespace Sys2Proof.Machine

theorem sliceWrite_memRead_self {N : Nat} (V : BitVec N) {lo width : Nat} (hbound : lo + width ≤ N) :
    sliceWrite V lo width (memRead V lo width) = V := by
  refine BitVec.eq_of_getLsbD_eq fun k hk => ?_
  by_cases hin : lo ≤ k ∧ k < lo + width
  · obtain ⟨j, rfl⟩ := Nat.exists_eq_add_of_le hin.1
    have hj : j < width := by omega
    rw [sliceWrite_getLsbD_inside V _ hbound hj, memRead_getLsbD, decide_eq_true hj, Bool.true_and]
  · exact sliceWrite_getLsbD_outside V _ (by omega)

/-- Either slice may be the illegal one: the destination's check comes first, and both raise SLICE_BOUNDS. -/
theorem exec_swrs_eq_raise_sliceBounds {s : State} {dst src : SliceOperand}
    (h : ¬ LegalSlice s.cfg.N dst ∨ ¬ LegalSlice s.cfg.N src) : exec (.swrs dst src) s = raise .sliceBounds s := by
  by_cases hdst : LegalSlice s.cfg.N dst
  · obtain ⟨lo, width, hd⟩ := hdst.denotes
    exact (withSlice_of hd _).trans (withSlice_of_not (h.resolve_left (not_not.mpr hdst)) _)
  · exact withSlice_of_not hdst _

/-- The word of SWRS with any two slice operands (format SS). -/
theorem decode_wordOf_swrs (c : Config) {dst src : SliceOperand} (hdst : dst.wf c = true) (hsrc : src.wf c = true) :
    decode c (wordOf c (sliceHeader 0x0026 dst + 0x400 * src.mode.toNat) dst.field1 dst.field2 src.field1 src.field2)
      = .ok (.swrs dst src) := by
  obtain ⟨h1, h2⟩ := SliceOperand.field_lt_of_wf hdst
  obtain ⟨h3, h4⟩ := SliceOperand.field_lt_of_wf hsrc
  exact (decode_wordOf_headerFields c 0x26#8 dst.mode src.mode false h1 h2 h3 h4).trans
    (Laws.FieldsRoundTrip.swrs dst src)

/-- The word of SWRS with mode 3 in MD or MS. -/
theorem decode_wordOf_swrs_mode3 (c : Config) {md ms : ModeField} {A B C D : Nat} (hA : A < 2 ^ c.FW)
    (hB : B < 2 ^ c.FW) (hC : C < 2 ^ c.FW) (hD : D < 2 ^ c.FW) (h : md = 3#2 ∨ ms = 3#2) :
    decode c (wordOf c (0x26 + 0x100 * md.toNat + 0x400 * ms.toNat) A B C D) = .error .sliceMode :=
  (decode_wordOf_headerFields c 0x26#8 md ms false hA hB hC hD).trans
    (Fields.sliced2_eq_error_of_mode3 (f := { OP := 0x26#8, MD := md, MS := ms, A := A, B := B, C := C, D := D })
      (fmt := .ss) (mk := .swrs) rfl h)

/-- Settles O46: V changes by the whole-slice write of what the source held, so a slice keeps a copy of itself. -/
theorem swrsCopiesSlice : Obligations.SwrsCopiesSlice := by
  refine ⟨fun c dst src => decode_wordOf_swrs c, fun c m x y z u hm hx hy hz hu => ?_, fun s dst src =>
    ⟨exec_swrs_eq_raise_sliceBounds, fun lo width lo2 width2 hd hr => ?_, fun hl => ?_⟩⟩
  · obtain ⟨mode, rfl⟩ : ∃ mode : ModeField, mode.toNat = m := ⟨BitVec.ofNat 2 m, Nat.mod_eq_of_lt hm⟩
    have hMS : 0x0C26 + 0x100 * mode.toNat = 0x26 + 0x100 * mode.toNat + 0x400 * (3#2).toNat :=
      Nat.add_right_comm 0x26 (0x400 * 3) (0x100 * mode.toNat)
    exact ⟨decode_wordOf_swrs_mode3 c (md := 3#2) hx hy hz hu (.inl rfl),
      hMS ▸ decode_wordOf_swrs_mode3 c hx hy hz hu (.inr rfl)⟩
  · refine ⟨_, (mapsV_swrs hd hr).exec_eq, fun j hj => ?_, fun _ => sliceWrite_getLsbD_outside s.V _⟩
    rw [sliceWrite_getLsbD_inside s.V _ hd.bound hj, memRead_getLsbD]
  · obtain ⟨lo, width, hd⟩ := hl.denotes
    rw [(mapsV_swrs hd hd).exec_eq, sliceWrite_memRead_self s.V hd.bound]
    rfl

/-- The state with the value `x` driven on `din` in the present slot. -/
def State.drive (s : State) (x : BitVec s.cfg.DW) : State :=
  { s with host := { s.port with din := x } :: s.host.tail }

/-- A violation records the cause and the word, not what stands on `din`. -/
theorem mapNext_nextSlot_raise_drive (k : Cause) (s : State) (x : BitVec s.cfg.DW) :
    mapNext State.nextSlot (raise k (s.drive x)) = mapNext State.nextSlot (raise k s) := by
  rw [raise_eq, raise_eq, apply_ite (mapNext State.nextSlot), apply_ite (mapNext State.nextSlot)]
  rfl

/-- The source operand of a command that is given a captured slice on `din`. -/
theorem source_drive_eq_memRead {s : State} {lo width : Nat} {tmp : BitVec s.cfg.DW}
    (htmp : tmp.toNat = s.V.toNat / 2 ^ lo % 2 ^ width) : (s.drive tmp).source width = memRead s.V lo width := by
  apply BitVec.eq_of_toNat_eq
  calc ((s.drive tmp).source width).toNat
    _ = tmp.toNat % 2 ^ width := convert_toNat width tmp
    _ = s.V.toNat / 2 ^ lo % 2 ^ width := by rw [htmp, Nat.mod_mod]
    _ = (memRead s.V lo width).toNat := (memRead_toNat s.V lo width).symm

/-- Settles O47: both commands make the same check on the destination and write the same value, since SWRS captures
its source before the write. -/
theorem swrsEqualsWriteOfCapturedSource : Obligations.SwrsEqualsWriteOfCapturedSource := by
  intro s dst src lo2 width2 tmp hr htmp
  change _ = mapNext State.nextSlot (exec (.swr dst width2) (s.drive tmp))
  by_cases hdst : LegalSlice s.cfg.N dst
  · obtain ⟨lo, width, hd⟩ := hdst.denotes
    have hswr : exec (.swr dst width2) (s.drive tmp) = _ := (mapsV_swr (s := s.drive tmp) hd hr.width_le_DW).exec_eq
    rw [(mapsV_swrs hd hr).exec_eq, hswr, source_drive_eq_memRead htmp]
    rfl
  · have hswr : exec (.swr dst width2) (s.drive tmp) = raise .sliceBounds (s.drive tmp) :=
      withSlice_of_not (s := s.drive tmp) hdst _
    rw [exec_swrs_eq_raise_sliceBounds (.inl hdst), hswr, mapNext_nextSlot_raise_drive]

end Sys2Proof.Machine
end

section
/-! Contract violations of a checked block (60_exceptions.md R203, R206): a halted block keeps all but the host's list,
and the slot that violates is an accepted one, so a run without `rst` has at most one. -/

namespace Sys2Proof.Machine

/-- With no `rst` in the host's list, none stands on the wires, since a host with no slot left asserts nothing. -/
theorem port_rst_of_host {s : State} (h : ∀ p ∈ s.host, p.rst = false) : s.port.rst = false := by
  rw [State.port]
  cases hs : s.host with
  | nil => rfl
  | cons p ps => exact h p (hs ▸ .head _)

theorem accepts_iff {s : State} :
    s.accepts = true ↔ s.port.rst = false ∧ s.port.cmd_valid = true ∧ s.cmd_ready = true := by
  rw [State.accepts, Bool.and_eq_true, Bool.and_eq_true, Bool.not_eq_true', and_assoc]

/-! ### The halted block -/

theorem State.halted.cmd_ready {s : State} (h : s.halted) : s.cmd_ready = false :=
  congrArg (!·) h

theorem State.halted.not_final {s : State} (h : s.halted) : ¬ s.final := fun hfinal => hfinal.2 h

/-- A violation of a checked block halts it. -/
theorem exists_raise_halted (k : Cause) {s : State} (h : s.cfg.CHECKED = true) :
    ∃ t, raise k s = .next t ∧ t.halted :=
  ⟨_, if_pos h, (halted_iff _).mpr ⟨h, rfl⟩⟩

theorem State.halted.step_eq {s : State} (h : s.halted) (hrst : s.port.rst = false) : step s = .next s.nextSlot := by
  obtain ⟨hrst', -⟩ | ⟨-, -, hpass⟩ | ⟨-, -, hready, -⟩ := step_cases s
  · cases hrst.symm.trans hrst'
  · exact hpass
  · cases h.cmd_ready.symm.trans hready

/-- R203: the slots pass, and nothing else changes. -/
theorem State.halted.run_eq {s : State} (h : s.halted) (hrst : ∀ p ∈ s.host, p.rst = false) (k : Nat) :
    Sys2Proof.core.run k s = .next { s with host := s.host.drop k } := by
  induction k generalizing s with
  | zero => rfl
  | succ k ih =>
    have hnext : s.nextSlot.halted := h
    calc Sys2Proof.core.run (k + 1) s
      _ = Sys2Proof.core.run k s.nextSlot := run_succ_of_next (h.step_eq (port_rst_of_host hrst)) k
      _ = .next { s with host := s.host.tail.drop k } := ih hnext fun p hp => hrst p (List.mem_of_mem_tail hp)
      _ = .next { s with host := s.host.drop (k + 1) } := by rw [List.drop_tail]

/-- Settles O15: a violation sets FAULT, which is what halts the block, and a halted block only lets slots pass. -/
theorem haltedBlockHoldsItsState : Obligations.HaltedBlockHoldsItsState :=
  ⟨fun c _ h => exists_raise_halted c h, fun _ k h hrst => ⟨h.cmd_ready, h.not_final, h.run_eq hrst k⟩⟩

/-! ### The slot that violates -/

/-- The word on the port raises the violation it reports, or completes and keeps the record. -/
theorem runCommand_cases (s : State) :
    (∃ k, Reports s.cfg s.port.cmd k ∧ runCommand s = raise k s) ∨
    ∃ (V' : BitVec s.cfg.N) (R' : BitVec s.cfg.DW) (F' : Bool),
      runCommand s = .next { s with V := V', R := R', F := F' } := by
  unfold runCommand
  cases hd : decode s.cfg s.port.cmd with
  | error e => exact .inl ⟨_, Reports.of_error hd, rfl⟩
  | ok i =>
    obtain ⟨k, hk, hmin, hs⟩ | ⟨-, V', R', F', hs, -⟩ := exec_cases i s
    · exact .inl ⟨k, Reports.of_ok hd hk hmin, hs⟩
    · exact .inr ⟨V', R', F', hs⟩

theorem mapNext_eq_next {g : State → State} {r : Result} {t : State} (h : mapNext g r = .next t) :
    ∃ u, r = .next u ∧ g u = t := by
  cases r with
  | next u => exact ⟨u, rfl, Host.Outcome.next.inj h⟩
  | fault | refused => cases h

/-- A slot without `rst` keeps the record, or is an accepted violation of a checked block and records it. -/
theorem step_eq_next_cases {s t : State} (hrst : s.port.rst = false) (h : step s = .next t) :
    (∃ (V' : BitVec s.cfg.N) (R' : BitVec s.cfg.DW) (F' : Bool),
      t = { s with V := V', R := R', F := F', host := s.host.tail }) ∨
    ∃ k, s.accepts = true ∧ Reports s.cfg s.port.cmd k ∧ s.cfg.CHECKED = true ∧
      t = { s with FAULT := true, CAUSE := k.code, FCMD := s.port.cmd, host := s.host.tail } := by
  obtain ⟨hrst', -⟩ | ⟨-, -, hpass⟩ | ⟨-, hvalid, hready, hrun⟩ := step_cases s
  · cases hrst.symm.trans hrst'
  · cases hpass.symm.trans h
    exact .inl ⟨s.V, s.R, s.F, rfl⟩
  · obtain ⟨u, hu, rfl⟩ := mapNext_eq_next (hrun.symm.trans h)
    obtain ⟨k, hk, hraise⟩ | ⟨V', R', F', hcomplete⟩ := runCommand_cases s
    · obtain ⟨hchecked, rfl⟩ := raise_eq_next (hraise.symm.trans hu)
      exact .inr ⟨k, accepts_iff.mpr ⟨hrst, hvalid, hready⟩, hk, hchecked, rfl⟩
    · cases hcomplete.symm.trans hu
      exact .inl ⟨V', R', F', rfl⟩

/-- A run of any machine that answers a next state has one after its first step. -/
theorem exists_step_of_run_succ {M : Host.Core} {s t : M.State} {n : Nat} (h : M.run (n + 1) s = .next t) :
    ∃ u, M.step s = .next u ∧ M.run n u = .next t := by
  rw [Host.Core.run] at h
  split at h
  · next u hu => exact ⟨u, hu, h⟩
  · cases h
  · cases h

/-- Settles O17, by induction on the slots of the run: after a slot that keeps FAULT 0 the rest of the run has the
violation, and after the one that sets it the block is halted and the record stays. -/
theorem firstViolationStaysRecorded : Obligations.FirstViolationStaysRecorded := by
  intro s t n hchecked hclear hrst hrun hfault
  induction n generalizing s with
  | zero =>
    cases hrun
    cases hclear.symm.trans hfault
  | succ n ih =>
    obtain ⟨u, hstep, hrest⟩ := exists_step_of_run_succ hrun
    have hrst' : ∀ p ∈ s.host.tail, p.rst = false := fun p hp => hrst p (List.mem_of_mem_tail hp)
    obtain ⟨V', R', F', rfl⟩ | ⟨k, haccepts, hk, -, rfl⟩ := step_eq_next_cases (port_rst_of_host hrst) hstep
    · obtain ⟨j, w, k, hj, hw, hviolates⟩ := ih
        { s with V := V', R := R', F := F', host := s.host.tail } hchecked hclear hrst' hrest
      exact ⟨j + 1, w, k, Nat.succ_lt_succ hj, (run_succ_of_next hstep j).trans hw, hviolates⟩
    · have hhalted : State.halted { s with
          FAULT := true, CAUSE := k.code, FCMD := s.port.cmd, host := s.host.tail } :=
        (halted_iff _).mpr ⟨hchecked, rfl⟩
      cases (hhalted.run_eq hrst' n).symm.trans hrest
      exact ⟨0, s, k, n.succ_pos, rfl, hclear, haccepts, hk, rfl, rfl⟩

end Sys2Proof.Machine
end

section
/-! The reset slot, and the end of the halt (70_reset_and_hazards.md R230, R231). -/

namespace Sys2Proof.Machine

/-- R230: `rst` comes before a command presented beside it, and the slot passes. -/
theorem step_of_rst {s : State} (hrst : s.port.rst = true) : step s = .next (State.resetOf s.cfg s.host.tail) := by
  obtain ⟨-, hreset⟩ | ⟨hrst', -⟩ | ⟨hrst', -⟩ := step_cases s
  · exact hreset
  · cases hrst.symm.trans hrst'
  · cases hrst.symm.trans hrst'

theorem resetOf_not_halted (c : Config) (host : List (Port c)) : ¬ (State.resetOf c host).halted := fun h =>
  Bool.false_ne_true (h.cmd_ready.symm.trans (resetOf_cmd_ready c host))

/-- Without `rst` a halted block stays halted, since its slot passes and changes neither the build nor FAULT. -/
theorem State.halted.of_step {s t : State} (h : s.halted) (hrst : s.port.rst = false) (hstep : step s = .next t) :
    t.halted := by
  cases (h.step_eq hrst).symm.trans hstep
  exact h

/-- Settles O16: without `rst` the halt stays, and with it the next state is one right after reset. -/
theorem onlyResetEndsTheHalt : Obligations.OnlyResetEndsTheHalt := by
  intro s t hhalted hstep
  constructor
  · intro hresumed
    by_contra hrst
    exact hresumed (hhalted.of_step (Bool.eq_false_of_not_eq_true hrst) hstep)
  · intro hrst
    cases (step_of_rst hrst).symm.trans hstep
    exact ⟨resetOf_not_halted _ _, rfl, BitVec.toNat_zero, rfl⟩

/-- Settles O10: the next state of a slot with `rst` is the one right after reset, which accepts commands. -/
theorem resetSlotGivesResetValues : Obligations.ResetSlotGivesResetValues := fun _ hrst =>
  ⟨_, step_of_rst hrst, resetOf_cmd_ready _ _, rfl⟩

end Sys2Proof.Machine
end

section
/-! The command word and the instruction (30_encoding.md R70 to R78): an instruction has a word just when its operands
fit their fields, and the fields a decoded instruction is encoded in are those it was read from. -/

namespace Sys2Proof

/-! ### Operands that fit -/

/-- The operand fields are in the range of a field of FW bits (R71). -/
def Fields.OperandsFit (c : Config) (f : Fields) : Prop :=
  f.A < 2 ^ c.FW ∧ f.B < 2 ^ c.FW ∧ f.C < 2 ^ c.FW ∧ f.D < 2 ^ c.FW

theorem SliceOperand.wf_iff {c : Config} {sl : SliceOperand} :
    sl.wf c = true ↔ sl.field1 < 2 ^ c.FW ∧ sl.field2 < 2 ^ c.FW := by
  cases sl <;> simp [SliceOperand.wf, fitsField, SliceOperand.field1, SliceOperand.field2]

/-- An instruction is well formed just when the fields it is encoded in can hold its operands; the operand fields it
leaves out are 0 and fit. -/
theorem Instr.wf_iff {c : Config} {i : Instr} : i.wf c = true ↔ (encodeFields i).OperandsFit c := by
  cases i <;> simp [Instr.wf, encodeFields, Fields.OperandsFit, fitsField, SliceOperand.wf_iff, and_assoc]

/-- What is read from a word fits. -/
theorem Fields.ofWord_operandsFit (c : Config) (w : BitVec c.CW) : (ofWord c w).OperandsFit c :=
  ⟨BitVec.isLt _, BitVec.isLt _, BitVec.isLt _, BitVec.isLt _⟩

/-! ### Decoding what was encoded -/

theorem decodeFields_encodeFields (i : Instr) : decodeFields (encodeFields i) = .ok i := by
  cases i with
  | sget sl n => exact Laws.FieldsRoundTrip.sget sl n
  | sset sl n v => exact Laws.FieldsRoundTrip.sset sl n v
  | sflip sl n => exact Laws.FieldsRoundTrip.sflip sl n
  | srd sl Wd => exact Laws.FieldsRoundTrip.srd sl Wd
  | swr sl Ws => exact Laws.FieldsRoundTrip.swr sl Ws
  | swri sl => exact Laws.FieldsRoundTrip.swri sl
  | swrs dst src => exact Laws.FieldsRoundTrip.swrs dst src
  | mask | conv | clr | load | readv | test | set | reset | flip | any | all | none | count | eq => rfl

/-- Settles O2: the operands fit, so the word holds the fields of the instruction, and these decode to it. -/
theorem decodeOfEncode : Obligations.DecodeOfEncode := by
  intro c i hwf
  obtain ⟨hA, hB, hC, hD⟩ := Instr.wf_iff.mp hwf
  calc decode c (encode c i)
    _ = decodeFields (encodeFields i) := congrArg decodeFields (Fields.ofWord_toWord c _ hA hB hC hD)
    _ = .ok i := decodeFields_encodeFields i

/-! ### Encoding what was decoded -/

namespace Fields

/-- The fields a format leaves free, the others at 0. -/
def keep (f : Fields) (fmt : Format) : Fields where
  OP := f.OP
  MD := if fmt.MD then f.MD else 0#2
  MS := if fmt.MS then f.MS else 0#2
  VB := if fmt.VB then f.VB else false
  A := if fmt.A then f.A else 0
  B := if fmt.B then f.B else 0
  C := if fmt.C then f.C else 0
  D := if fmt.D then f.D else 0

/-- Fields that are legal for a format hold nothing beside what the format leaves free. -/
theorem Legal.keep_eq {f : Fields} {fmt : Format} (h : f.Legal fmt) : f.keep fmt = f := by
  have free {α : Type} {x z : α} {b : Bool} (hx : b = true ∨ x = z) : (if b then x else z) = x := by
    rw [ite_eq_left_iff]
    exact fun hb => (hx.resolve_left hb).symm
  obtain ⟨hMD, hMS, hVB, hA, hB, hC, hD⟩ := (f.unusedZero_iff fmt).mp h.unused
  rw [keep, free hMD, free hMS, free hVB, free hA, free hB, free hC, free hD, ← h.reserved]

section
variable {f : Fields} {fmt : Format} {j : Instr}

theorem encodeFields_of_plain {i : Instr} (h : f.plain fmt i = .ok j) (hi : encodeFields i = f.keep fmt) :
    encodeFields j = f.keep fmt := by
  obtain ⟨-, rfl⟩ := plain_eq_ok.mp h
  exact hi

theorem encodeFields_of_sliced {mk : SliceOperand → Instr} (h : f.sliced fmt mk = .ok j)
    (hmk : ∀ sl, encodeFields (mk sl) = keep { f with MD := sl.mode, A := sl.field1, B := sl.field2 } fmt) :
    encodeFields j = f.keep fmt := by
  obtain ⟨-, sl, hsl, rfl⟩ := sliced_eq_ok.mp h
  obtain ⟨hMD, hA, hB⟩ := SliceOperand.fields_of_ofFields hsl
  rw [hmk, hMD, hA, hB]

theorem encodeFields_of_sliced2 {mk : SliceOperand → SliceOperand → Instr} (h : f.sliced2 fmt mk = .ok j)
    (hmk : ∀ dst src, encodeFields (mk dst src) = keep { f with
      MD := dst.mode, A := dst.field1, B := dst.field2, MS := src.mode, C := src.field1, D := src.field2 } fmt) :
    encodeFields j = f.keep fmt := by
  obtain ⟨-, dst, src, hdst, hsrc, rfl⟩ := sliced2_eq_ok.mp h
  obtain ⟨hMD, hA, hB⟩ := SliceOperand.fields_of_ofFields hdst
  obtain ⟨hMS, hC, hD⟩ := SliceOperand.fields_of_ofFields hsrc
  rw [hmk, hMD, hA, hB, hMS, hC, hD]

end

end Fields

/-- Row by row of the opcode map, the encoder fills the fields that the row's format leaves free with what the decoder
read there. -/
theorem encodeFields_of_decodeFields {f : Fields} {i : Instr} (h : decodeFields f = .ok i) : encodeFields i = f := by
  obtain ⟨r, hr, hop, hl, -⟩ := exists_row_of_decodeFields h
  refine Eq.trans ?_ hl.keep_eq
  obtain ⟨hRSV, -⟩ := hl
  obtain ⟨OP, MD, MS, VB, RSV, A, B, C, D⟩ := f
  subst hRSV hop
  simp only [headerTable, List.cons_append, List.nil_append, List.mem_cons, List.not_mem_nil, or_false] at hr
  rcases hr with rfl | rfl | rfl | rfl | rfl | rfl | rfl | rfl | rfl | rfl | rfl | rfl | rfl | rfl |
    rfl | rfl | rfl | rfl | rfl | rfl | rfl
  iterate 14 exact Fields.encodeFields_of_plain h rfl
  iterate 6 exact Fields.encodeFields_of_sliced h fun _ => rfl
  exact Fields.encodeFields_of_sliced2 h fun _ _ => rfl

/-- Settles O3: the instruction's fields are the word's, which fit and make the word up. -/
theorem encodeOfDecode : Obligations.EncodeOfDecode := by
  intro c w i hdecode
  have hfields : encodeFields i = Fields.ofWord c w := encodeFields_of_decodeFields hdecode
  refine ⟨Instr.wf_iff.mpr (hfields ▸ Fields.ofWord_operandsFit c w), ?_⟩
  rw [encode, hfields, Fields.toWord_ofWord]

end Sys2Proof
end

section
/-! The recorded violation and the build parameters, through reset and every step (00_scope.md R1; 10_state.md R29 to
R31; 60_exceptions.md R206). -/

namespace Sys2Proof.Machine

theorem resetOf_inv (c : Config) (host : List (Port c)) : (State.resetOf c host).Inv where
  unchecked _ := rfl
  clear _ := ⟨rfl, rfl⟩
  recorded hset := absurd hset Bool.false_ne_true

/-- A step resets, keeps the record, or is an accepted violation of a checked block and records it; none of the three
changes the build. -/
theorem step_next_cases {s t : State} (h : step s = .next t) :
    t = State.resetOf s.cfg s.host.tail ∨
    (∃ (V' : BitVec s.cfg.N) (R' : BitVec s.cfg.DW) (F' : Bool),
      t = { s with V := V', R := R', F := F', host := s.host.tail }) ∨
    ∃ k, Reports s.cfg s.port.cmd k ∧ s.cfg.CHECKED = true ∧
      t = { s with FAULT := true, CAUSE := k.code, FCMD := s.port.cmd, host := s.host.tail } := by
  cases hrst : s.port.rst
  · obtain hkept | ⟨k, -, hrecorded⟩ := step_eq_next_cases hrst h
    · exact .inr (.inl hkept)
    · exact .inr (.inr ⟨k, hrecorded⟩)
  · cases (step_of_rst hrst).symm.trans h
    exact .inl rfl

/-- Settles O19: the record is cleared, kept, or that of a word that reports its cause in a checked block. -/
theorem stepKeepsRecordInvariant : Obligations.StepKeepsRecordInvariant := by
  intro s t hinv hstep
  obtain rfl | ⟨V', R', F', rfl⟩ | ⟨k, hk, hchecked, rfl⟩ := step_next_cases hstep
  · exact resetOf_inv _ _
  · exact ⟨hinv.unchecked, hinv.clear, hinv.recorded⟩
  · exact ⟨fun hunchecked => absurd hchecked (Bool.eq_false_iff.mp hunchecked), nofun, fun _ => ⟨k, rfl, hk⟩⟩

/-- Settles O12: reset keeps the build as every other slot does. -/
theorem stepKeepsBuildParameters : Obligations.StepKeepsBuildParameters := by
  intro s t hstep
  obtain rfl | ⟨V', R', F', rfl⟩ | ⟨k, -, -, rfl⟩ := step_next_cases hstep
  · rfl
  · rfl
  · rfl

/-- Settles O18: `State.reset` is the state after reset of one build. -/
theorem recordInvariantHoldsAfterReset : Obligations.RecordInvariantHoldsAfterReset :=
  ⟨resetOf_inv Config.default [], resetOf_inv⟩

end Sys2Proof.Machine
end

section
/-! The cause that a violation reports, and what the outputs show of it (10_state.md R29, R30; 60_exceptions.md R200 to
R205). -/

namespace Sys2Proof.Machine

/-! ### Reporting -/

/-- Of the causes that apply, one has the lowest code (R202). -/
theorem exists_reports {c : Config} {w : BitVec c.CW} (h : ∃ k, WordBreaks c w k) : ∃ k, Reports c w k := by
  obtain ⟨k, hk, hmin⟩ := (measure fun k : Cause => k.code.toNat).wf.has_min {k | WordBreaks c w k} h
  exact ⟨k, hk, fun k' hk' => BitVec.not_lt.mp (hmin k' hk')⟩

/-- The checks of a command, in the order it makes them, find the cause its word reports. -/
theorem runCommand_of_reports {s : State} {k : Cause} (hk : Reports s.cfg s.port.cmd k) :
    runCommand s = raise k s := by
  unfold runCommand
  cases hd : decode s.cfg s.port.cmd with
  | error e => rw [hk.unique (Reports.of_error hd)]
  | ok i =>
    obtain ⟨k', hk', hmin, hs⟩ | ⟨hlegal, -⟩ := exec_cases i s
    · rw [hk.unique (Reports.of_ok hd hk' hmin)]
      exact hs
    · exact absurd (hk.1.of_ok hd) (hlegal k)

theorem step_of_reports {s : State} {k : Cause} (hrst : s.port.rst = false) (hvalid : s.port.cmd_valid = true)
    (hready : s.cmd_ready = true) (hk : Reports s.cfg s.port.cmd k) :
    step s = mapNext State.nextSlot (raise k s) := by
  rw [step_of_accepted hrst hvalid hready, runCommand_of_reports hk]

theorem raise_of_checked (k : Cause) {s : State} (h : s.cfg.CHECKED = true) :
    raise k s = .next { s with FAULT := true, CAUSE := k.code, FCMD := s.port.cmd } := if_pos h

theorem raise_of_unchecked (k : Cause) {s : State} (h : s.cfg.CHECKED = false) :
    raise k s = .fault (.undefinedBehaviour k) := if_neg (Bool.eq_false_iff.mp h)

/-- Settles O13: the accepted word raises the cause it reports, which CHECKED makes a record or a fault. -/
theorem violationReportsLowestCause : Obligations.ViolationReportsLowestCause := by
  refine ⟨fun s k hrst hvalid hready hk => ?_, fun _ _ => exists_reports⟩
  rw [step_of_reports hrst hvalid hready hk]
  exact ⟨fun hchecked => congrArg (mapNext State.nextSlot) (raise_of_checked k hchecked),
    fun hunchecked => congrArg (mapNext State.nextSlot) (raise_of_unchecked k hunchecked)⟩

/-! ### The outputs -/

theorem statusWord_toNat (code : CauseCode) (fault : Bool) :
    (statusWord code fault).toNat = 16 * code.toNat + fault.toNat := by
  revert code fault; decide

theorem status_of_checked {s : State} (h : s.cfg.CHECKED = true) : s.status = statusWord s.CAUSE s.FAULT := if_pos h

/-- What the host reads from STATUS after a violation of a checked block. -/
theorem exists_raise_status (k : Cause) {s : State} (h : s.cfg.CHECKED = true) :
    ∃ t, raise k s = .next t ∧ t.status = statusWord k.code true :=
  ⟨_, raise_of_checked k h, status_of_checked h⟩

/-- Settles O20: the fields of STATUS are those of `statusWord`, and a violation puts its code and 1 in them. -/
theorem statusShowsFaultAndCause : Obligations.StatusShowsFaultAndCause := by
  refine ⟨fun s h => ⟨?_, ?_, ?_⟩, fun s h => ?_⟩
  · rw [status_of_checked h, statusWord_toNat]
  · rw [err_eq, h, Bool.true_and]
  · rw [cmd_ready_eq, h, Bool.true_and]
  · obtain ⟨t1, hraise1, hstatus1⟩ := exists_raise_status .illegalEncoding h
    obtain ⟨t2, hraise2, hstatus2⟩ := exists_raise_status .sliceBounds h
    obtain ⟨t3, hraise3, hstatus3⟩ := exists_raise_status .portWidth h
    obtain ⟨t4, hraise4, hstatus4⟩ := exists_raise_status .sliceIndex h
    obtain ⟨t5, hraise5, hstatus5⟩ := exists_raise_status .bitIndex h
    obtain ⟨t6, hraise6, hstatus6⟩ := exists_raise_status .maskWidth h
    exact ⟨t1, t2, t3, t4, t5, t6, hraise1, hstatus1, hraise2, hstatus2, hraise3, hstatus3, hraise4, hstatus4,
      hraise5, hstatus5, hraise6, hstatus6⟩

/-- Settles O21: the outputs are hardwired, so the block is ready for every word, and the violation is the fault. -/
theorem uncheckedBlockReadsNoRecord : Obligations.UncheckedBlockReadsNoRecord := by
  intro s hunchecked
  have hready : s.cmd_ready = true := by rw [cmd_ready_eq, hunchecked, Bool.false_and, Bool.not_false]
  have hne : ¬ s.cfg.CHECKED = true := Bool.eq_false_iff.mp hunchecked
  refine ⟨if_neg hne, if_neg hne, hready, fun k hrst hvalid hk => ?_⟩
  rw [step_of_reports hrst hvalid hready hk, raise_of_unchecked k hunchecked]
  rfl

end Sys2Proof.Machine
end

section
/-! The slot a command runs in (10_state.md R32; 20_memory.md R52): the word on `cmd` chooses the command, and only the
commands with their source on `din` depend on what else the host drives. -/

namespace Sys2Proof.Machine

/-- Behind its checks, a command whose source is not on `din` gives the same whether the host's slot stands on the wires
or has passed. -/
theorem exec_nextSlot {i : Instr} {s : State} (hdin : readsDin i = false) (hb : ∀ k, ¬ Breaks s.cfg i k) :
    exec i s.nextSlot = mapNext State.nextSlot (exec i s) := by
  have hc : s.nextSlot.cfg = s.cfg := rfl
  cases i with
  | load | conv | eq | swr | swri => cases hdin
  | mask K w => exact needPort_mapNext hb hc (.head _) (requireMaskWidth_mapNext hb (.head _) rfl)
  | readv Wd => exact needPort_mapNext hb hc (.head _) rfl
  | test n => exact needBit_mapNext hb hc (.head _) rfl
  | set n v => exact needBit_mapNext hb hc (.head _) rfl
  | reset n => exact needBit_mapNext hb hc (.head _) rfl
  | flip n => exact needBit_mapNext hb hc (.head _) rfl
  | clr | any | all | none | count => rfl
  | sget sl n => unfold exec execSget; exact withSliceBit_mapNext hb hc (.head _) (.head _) fun _ => rfl
  | sset sl n v => unfold exec execSset; exact withSliceBit_mapNext hb hc (.head _) (.head _) fun _ => rfl
  | sflip sl n => unfold exec execSflip; exact withSliceBit_mapNext hb hc (.head _) (.head _) fun _ => rfl
  | srd sl Wd => exact withSlice_mapNext hb hc (.head _) fun _ => needPort_mapNext hb hc (.head _) rfl
  | swrs dst src =>
    exact withSlice_mapNext hb hc (.head _) fun _ => withSlice_mapNext hb hc (.tail _ (.head _)) fun _ => rfl

/-- Settles O51: a violation does not record `din`, and a command that completes does so as it would after the slot,
where the two states are the same. -/
theorem dinIgnoredByOtherCommands : Obligations.DinIgnoredByOtherCommands := by
  intro i s din hdin
  change mapNext State.nextSlot (exec i (s.drive din)) = _
  by_cases hb : ∃ k, Breaks s.cfg i k
  · have hc : (s.drive din).cfg = s.cfg := rfl
    obtain ⟨k, hs, hdrive⟩ := exec_raise_of_breaks hc hb
    rw [hs, hdrive, mapNext_nextSlot_raise_drive]
  · have hb' := not_exists.mp hb
    have hsame : (s.drive din).nextSlot = s.nextSlot := rfl
    rw [← exec_nextSlot (s := s.drive din) hdin hb', hsame, exec_nextSlot hdin hb']

/-- Settles O7: an accepted word is run, and a word that decodes is run by its meaning. -/
theorem acceptedWordRunsDecodedCommand : Obligations.AcceptedWordRunsDecodedCommand := by
  intro s i hrst hvalid hready hdecode
  rw [step_of_accepted hrst hvalid hready, runCommand, hdecode]

theorem decode_of_decodeTableWord {nbits w : Nat} {i : Instr} (h : decodeTableWord nbits w = some i) :
    decode Config.default (tableWord Config.default nbits w) = .ok i := by
  unfold decodeTableWord at h
  split at h
  · split at h
    · next j hj => cases h; exact hj
    · cases h
  · cases h

/-- Settles O8: the host's first slot presents the word to a block right after reset, which is ready. -/
theorem presentedTableWordRuns : Obligations.PresentedTableWordRuns := fun nbits w i h =>
  acceptedWordRunsDecodedCommand (State.reset.withFetchWord nbits w) i rfl rfl (resetOf_cmd_ready Config.default _)
    (decode_of_decodeTableWord h)

/-- Settles O9: a slot with no `rst` that is not one in which a command is accepted only passes. -/
theorem slotWithoutCommandChangesNothing : Obligations.SlotWithoutCommandChangesNothing := by
  intro s hrst hidle
  obtain ⟨hrst', -⟩ | ⟨-, -, hpass⟩ | ⟨-, hvalid, hready, -⟩ := step_cases s
  · cases hrst.symm.trans hrst'
  · exact hpass
  · obtain hno | hno := hidle
    · cases hno.symm.trans hvalid
    · cases hno.symm.trans hready

end Sys2Proof.Machine
end
